-- ==== Sys2Proof/Word.lean ====
section
/-! DEFINITION. The word types of the block (spec R5, R6): every value is an unsigned integer of a stated width. -/

namespace Sys2Proof

/-- A priority entry, `PRIW` = 8 bits (R5, R26). -/
abbrev Byte := BitVec 8

/-- A mode selector, `SELW` = 16 bits (R5), and the width of the key field (R88). -/
abbrev Half := BitVec 16

/-- A bank register, `BANKW` = 32 bits (R5), and a command word (R81). -/
abbrev Word := BitVec 32

/-- One flag per line, bit `i` the flag of line `i` (R23 to R25). There is no bit for a line above 59 (R31). -/
abbrev Flags := BitVec 60

/-- A line that exists, one of 0..59 (R5: `N` = 60). -/
abbrev Line := Fin 60

/-- A bank of a banked register kind, 0 or 1 (R5: `NBANKS` = 2). -/
abbrev Bank := Fin 2

end Sys2Proof
end

