-- ==== Sys2Proof/Config.lean ====
section
/-! DEFINITION. The implementation parameters of the block (spec R5): the OPEN values are constants with no body, so
that every statement holds whatever they are; the register offsets are a structure the decoder takes as an argument. -/

namespace Sys2Proof

/-- The five priority grouping modes, by the spec's names (R89). -/
inductive GroupMode where
  | g4s0
  | g3s1
  | g2s2
  | g1s3
  | g0s4
  deriving DecidableEq, Repr, Inhabited

/-- `UNLOCK_KEY` (R5, R88): OPEN, 16 bits. The document never gives its value (log 7). -/
opaque Config.unlockKey : Half

/-- `KEY_READ` (R5, R164): OPEN, what bits 31:16 of `GCFG` read as (log 8). -/
opaque Config.keyRead : Half

/-- `RESET_MODE` (R5, R35): OPEN, "no value" or 0..7 (log 6). -/
opaque Config.resetMode : Option (BitVec 3)

/-- `INIT_MODE` (R5, R132): OPEN, always one of the five modes (log 9). -/
opaque Config.initMode : GroupMode

/-- The byte offsets of the registers in the register space (R5, R50): OPEN parameters, an argument of the decoder, of the
encoder and of the state after reset; a machine carries its own in its state. Bank `b` of a banked kind stands at its offset plus `4 * b`, priority entry `n` at `pri + n`. -/
structure Offsets where
  es : Nat
  ec : Nat
  ps : Nat
  pc : Nat
  af : Nat
  pri : Nat
  gcfg : Nat
  deriving DecidableEq, Repr

/-- The suggested default offsets of R50, with which the spec's header table (R91) is written; `State.reset` takes them. PRESUMED: the spec marks
them "from general knowledge, not in source" (log 10). -/
def Config.offsets : Offsets :=
  { es := 0x100, ec := 0x180, ps := 0x200, pc := 0x280, af := 0x300, pri := 0x400, gcfg := 0xD0C }

end Sys2Proof
end

