-- ==== Sys2Proof/Syntax.lean ====
section
/-! DEFINITION. What the block can be given: the 22 instructions of the opcode table (8 operations, R80, and 14 register
accesses, R91), the three environment events (R198 to R200), the registers and the accesses they stand for (R29, R92),
and the coded forms in which instructions arrive (R81, R90). -/

namespace Sys2Proof

/-- One constructor per row of the opcode table. The operands of the operations are the raw fields of the command word
(R81): a `line` of 60..255 or a `sel` outside the five is well formed and is rejected when it runs (R95 (b), (c)). -/
inductive Instr where
  /-- `ENABLE line` (R111). -/
  | enable (line : Byte)
  /-- `DISABLE line` (R112). -/
  | disable (line : Byte)
  /-- `SETPEND line` (R113). -/
  | setpend (line : Byte)
  /-- `CLRPEND line` (R114). -/
  | clrpend (line : Byte)
  /-- `ISACTIVE line` (R115). -/
  | isactive (line : Byte)
  /-- `SETPRI line, prio` (R130). -/
  | setpri (line : Byte) (prio : Byte)
  /-- `SETGRP sel` (R131). -/
  | setgrp (sel : Half)
  /-- `INIT` (R132). -/
  | init
  /-- `WR32 ES[b], w` (R151). -/
  | wrEs (b : Bank) (w : Word)
  /-- `RD32 ES[b]` (R152). -/
  | rdEs (b : Bank)
  /-- `WR32 EC[b], w` (R153). -/
  | wrEc (b : Bank) (w : Word)
  /-- `RD32 EC[b]` (R154). -/
  | rdEc (b : Bank)
  /-- `WR32 PS[b], w` (R155). -/
  | wrPs (b : Bank) (w : Word)
  /-- `RD32 PS[b]` (R156). -/
  | rdPs (b : Bank)
  /-- `WR32 PC[b], w` (R157); `PC` is the pending-clear register (R29). -/
  | wrPc (b : Bank) (w : Word)
  /-- `RD32 PC[b]` (R158). -/
  | rdPc (b : Bank)
  /-- `RD32 AF[b]` (R159). -/
  | rdAf (b : Bank)
  /-- `WR32 AF[b], w` (R160). -/
  | wrAf (b : Bank) (w : Word)
  /-- `WR8 PRI[n], w` (R161); the header holds six bits of `n` (R91). -/
  | wrPri (n : BitVec 6) (w : Byte)
  /-- `RD8 PRI[n]` (R162). -/
  | rdPri (n : BitVec 6)
  /-- `WR32 GCFG, w` (R163). -/
  | wrGcfg (w : Word)
  /-- `RD32 GCFG` (R164). -/
  | rdGcfg
  deriving DecidableEq, Repr

/-- The environment events: a peripheral signals a line, the core takes the presented interrupt, a handler ends
(R198 to R200). They have no encoding, and no event names a line above 59. -/
inductive Event where
  | irq (i : Line)
  | take
  | ret (i : Line)
  deriving DecidableEq, Repr

/-- The 32-bit registers (R29). -/
inductive Reg32 where
  | es (b : Bank)
  | ec (b : Bank)
  | ps (b : Bank)
  | pc (b : Bank)
  | af (b : Bank)
  | gcfg
  deriving DecidableEq, Repr

/-- One register access that reaches a register, as R92 writes it: `WR32 reg, value`, `RD32 reg`, `WR8 PRI[n], value`,
`RD8 PRI[n]`. -/
inductive Access where
  | wr32 (r : Reg32) (w : Word)
  | rd32 (r : Reg32)
  | wr8 (n : Line) (w : Byte)
  | rd8 (n : Line)
  deriving DecidableEq, Repr

/-- The size of a transaction, 8, 16 or 32 bits (R90). -/
inductive Size where
  | s8
  | s16
  | s32
  deriving DecidableEq, Repr

/-- The part of a transaction that the 16-bit header packs (R90): write or read, size, byte offset. -/
structure Header where
  wr : Bool
  size : Size
  off : BitVec 12
  deriving DecidableEq, Repr

/-- An instruction as it arrives. An operation comes as one command word on the command port (R81); a transaction comes
as a header and its write data on the bus port (R90). A read drives no write data and an 8-bit write drives bits 7:0. -/
inductive Coded where
  | command (w : Word)
  | bus (header : BitVec 16) (wdata : Word)
  deriving DecidableEq, Repr

/-- One entry of a program in the sense of R22: a step of a master, or an event. -/
inductive Input where
  | master (x : Coded)
  | event (e : Event)
  deriving DecidableEq, Repr

/-- Why a coded instruction has no meaning; the model refuses each (R10). -/
inductive DecodeError where
  /-- A command word with `OP` 0x8..0xF (R83). -/
  | reservedOp
  /-- A command word with a 1 in a bit its format shows as 0 (R83). -/
  | reservedBits
  /-- A header with bit 14 set (R91). -/
  | headerBit14
  /-- A header with size code 11 (R90, R91). -/
  | reservedSize
  /-- An 8-bit or 16-bit access in a 32-bit register, a 16-bit or 32-bit access in the priority array (R166). -/
  | wrongWidth
  /-- A 32-bit access inside a 32-bit register but not at its offset (R53). -/
  | misaligned
  /-- An access at an offset where there is no register, priority entries 60..63 among them (R167). -/
  | unmapped
  deriving DecidableEq, Repr

/-- The three error kinds of an operation, each with the operand it records (R220). -/
inductive OpError where
  | invalidLine (line : Byte)
  | invalidPriorityValue (prio : Byte)
  | invalidGroupingMode (sel : Half)
  deriving DecidableEq, Repr

/-- True of the eight operations, false of the fourteen register accesses (R80). -/
def Instr.isOperation : Instr → Bool
  | .enable _ => true
  | .disable _ => true
  | .setpend _ => true
  | .clrpend _ => true
  | .isactive _ => true
  | .setpri _ _ => true
  | .setgrp _ => true
  | .init => true
  | .wrEs _ _ => false
  | .rdEs _ => false
  | .wrEc _ _ => false
  | .rdEc _ => false
  | .wrPs _ _ => false
  | .rdPs _ => false
  | .wrPc _ _ => false
  | .rdPc _ => false
  | .rdAf _ => false
  | .wrAf _ _ => false
  | .wrPri _ _ => false
  | .rdPri _ => false
  | .wrGcfg _ => false
  | .rdGcfg => false

end Sys2Proof
end

