-- ==== Sys2Proof/WellFormed.lean ====
section
/-! DEFINITION. Which instructions and which offset parameters are well formed. -/

namespace Sys2Proof

/-- The one check an instruction's fields need: a priority entry number is at most 59 (R91's extra condition). A line
operand of 60..255 and a selector outside the five are well formed (R95 (b), (c)). -/
def Instr.wellFormed : Instr → Bool
  | .enable _ => true
  | .disable _ => true
  | .setpend _ => true
  | .clrpend _ => true
  | .isactive _ => true
  | .setpri _ _ => true
  | .setgrp _ => true
  | .init => true
  | .wrEs _ _ => true
  | .rdEs _ => true
  | .wrEc _ _ => true
  | .rdEc _ => true
  | .wrPs _ _ => true
  | .rdPs _ => true
  | .wrPc _ _ => true
  | .rdPc _ => true
  | .rdAf _ => true
  | .wrAf _ _ => true
  | .wrPri n _ => decide (n.toNat ≤ 59)
  | .rdPri n => decide (n.toNat ≤ 59)
  | .wrGcfg _ => true
  | .rdGcfg => true

/-- The registers' extents, first byte and number of bytes (R50's last column). -/
def Offsets.extents (o : Offsets) : List (Nat × Nat) :=
  [(o.es, 4), (o.es + 4, 4), (o.ec, 4), (o.ec + 4, 4), (o.ps, 4), (o.ps + 4, 4), (o.pc, 4), (o.pc + 4, 4),
   (o.af, 4), (o.af + 4, 4), (o.gcfg, 4), (o.pri, 60)]

/-- The offsets keep the registers pairwise disjoint (R50) and inside the 4096 bytes that the header's 12-bit `off`
reaches (R90). -/
def Offsets.wellFormed (o : Offsets) : Bool :=
  o.extents.all (fun e => decide (e.1 + e.2 ≤ 4096)) &&
    decide (o.extents.Pairwise (fun a b => a.1 + a.2 ≤ b.1 ∨ b.1 + b.2 ≤ a.1))

end Sys2Proof
end

