-- ==== Sys2Proof/Decode.lean ====
section
/-! DEFINITION. The decoder of command words (R81 to R83) and of bus headers (R90, R91), total, rejecting by name; then
the encoder, written from the same tables; then the layout in which the opcode table numbers an instruction's bits. -/

namespace Sys2Proof

/-! ### Command words -/

/-- Format L (R81): bits 27:8 zero, `line` in bits 7:0. -/
def decodeL (mk : Byte → Instr) (w : Word) : Except DecodeError Instr :=
  if w.extractLsb' 8 20 = 0 then .ok (mk (w.extractLsb' 0 8)) else .error .reservedBits

/-- Format P (R81): bits 27:24 and 15:8 zero, `prio` in bits 23:16, `line` in bits 7:0. -/
def decodeP (mk : Byte → Byte → Instr) (w : Word) : Except DecodeError Instr :=
  if w.extractLsb' 24 4 = 0 ∧ w.extractLsb' 8 8 = 0 then .ok (mk (w.extractLsb' 0 8) (w.extractLsb' 16 8))
  else .error .reservedBits

/-- Format G (R81): bits 27:16 zero, `sel` in bits 15:0. -/
def decodeG (mk : Half → Instr) (w : Word) : Except DecodeError Instr :=
  if w.extractLsb' 16 12 = 0 then .ok (mk (w.extractLsb' 0 16)) else .error .reservedBits

/-- Format Z (R81): bits 27:0 zero. -/
def decodeZ (i : Instr) (w : Word) : Except DecodeError Instr :=
  if w.extractLsb' 0 28 = 0 then .ok i else .error .reservedBits

/-- A command word: `OP` in bits 31:28 selects the operation (R82); 0x8..0xF is reserved (R83). -/
def decodeCommand (w : Word) : Except DecodeError Instr :=
  match (w.extractLsb' 28 4).toNat with
  | 0 => decodeL .enable w
  | 1 => decodeL .disable w
  | 2 => decodeL .setpend w
  | 3 => decodeL .clrpend w
  | 4 => decodeL .isactive w
  | 5 => decodeP .setpri w
  | 6 => decodeG .setgrp w
  | 7 => decodeZ .init w
  | _ => .error .reservedOp

/-! ### The register map -/

/-- Every 32-bit register (R29). -/
def allReg32 : List Reg32 :=
  [.es 0, .es 1, .ec 0, .ec 1, .ps 0, .ps 1, .pc 0, .pc 1, .af 0, .af 1, .gcfg]

/-- The byte offset of a 32-bit register: the kind's offset plus 4 for bank 1 (R50, R99). -/
def Offsets.reg32 (o : Offsets) : Reg32 → Nat
  | .es b => o.es + 4 * b.val
  | .ec b => o.ec + 4 * b.val
  | .ps b => o.ps + 4 * b.val
  | .pc b => o.pc + 4 * b.val
  | .af b => o.af + 4 * b.val
  | .gcfg => o.gcfg

/-- The byte offset of a priority entry (R50, R87). -/
def Offsets.entry (o : Offsets) (n : Nat) : Nat := o.pri + n

/-- The 32-bit register whose offset is exactly `off` (R53). -/
def Offsets.reg32At (o : Offsets) (off : Nat) : Option Reg32 :=
  allReg32.find? (fun r => o.reg32 r == off)

/-- The priority entry at `off`, of 0..59 (R53). -/
def Offsets.entryAt (o : Offsets) (off : Nat) : Option (BitVec 6) :=
  if o.pri ≤ off ∧ off < o.pri + 60 then some (BitVec.ofNat 6 (off - o.pri)) else none

/-- The name under which an access that reaches no register is refused (R53, R166, R167). -/
def Offsets.whyRefused (o : Offsets) (size : Size) (off : Nat) : DecodeError :=
  if allReg32.any (fun r => decide (o.reg32 r ≤ off ∧ off < o.reg32 r + 4)) then
    if size = .s32 then .misaligned else .wrongWidth
  else if o.pri ≤ off ∧ off < o.pri + 60 then .wrongWidth
  else .unmapped

/-! ### Bus headers -/

/-- The size a size code stands for (R90); 11 is reserved. -/
def Size.ofCode (c : BitVec 2) : Option Size :=
  match c.toNat with
  | 0 => some .s8
  | 1 => some .s16
  | 2 => some .s32
  | _ => none

/-- The size code of a size (R90). -/
def Size.code : Size → BitVec 2
  | .s8 => 0b00#2
  | .s16 => 0b01#2
  | .s32 => 0b10#2

/-- The fields of a 16-bit header (R90): bit 15 `wr`, bit 14 zero, bits 13:12 the size code, bits 11:0 `off`. -/
def unpackHeader (h : BitVec 16) : Except DecodeError Header :=
  if h.getLsbD 14 then .error .headerBit14
  else
    match Size.ofCode (h.extractLsb' 12 2) with
    | none => .error .reservedSize
    | some size => .ok { wr := h.getLsbD 15, size := size, off := h.extractLsb' 0 12 }

/-- A header's 16 bits (R90). -/
def packHeader (t : Header) : BitVec 16 := BitVec.ofBool t.wr ++ 0#1 ++ t.size.code ++ t.off

/-- The write access of a 32-bit register (R91). -/
def Reg32.writeInstr (d : Word) : Reg32 → Instr
  | .es b => .wrEs b d
  | .ec b => .wrEc b d
  | .ps b => .wrPs b d
  | .pc b => .wrPc b d
  | .af b => .wrAf b d
  | .gcfg => .wrGcfg d

/-- The read access of a 32-bit register (R91). -/
def Reg32.readInstr : Reg32 → Instr
  | .es b => .rdEs b
  | .ec b => .rdEc b
  | .ps b => .rdPs b
  | .pc b => .rdPc b
  | .af b => .rdAf b
  | .gcfg => .rdGcfg

/-- A transaction: the register at the header's offset, if the header's size is that register's own (R52, R53). -/
def decodeBus (o : Offsets) (h : BitVec 16) (d : Word) : Except DecodeError Instr :=
  match unpackHeader h with
  | .error e => .error e
  | .ok t =>
    match t.size with
    | .s32 =>
      match o.reg32At t.off.toNat with
      | some r => .ok (if t.wr then r.writeInstr d else r.readInstr)
      | none => .error (o.whyRefused .s32 t.off.toNat)
    | .s8 =>
      match o.entryAt t.off.toNat with
      | some n => .ok (if t.wr then .wrPri n (d.setWidth 8) else .rdPri n)
      | none => .error (o.whyRefused .s8 t.off.toNat)
    | .s16 => .error (o.whyRefused .s16 t.off.toNat)

/-- The decoder, for offset parameters `o`. -/
def decode (o : Offsets) : Coded → Except DecodeError Instr
  | .command w => decodeCommand w
  | .bus h d => decodeBus o h d

/-! ### The encoder -/

/-- A format L word (R81). -/
def encodeL (op : BitVec 4) (line : Byte) : Coded := .command (op ++ 0#20 ++ line)

/-- A 32-bit write of a register (R90). -/
def encodeWr32 (o : Offsets) (r : Reg32) (d : Word) : Coded :=
  .bus (packHeader { wr := true, size := .s32, off := BitVec.ofNat 12 (o.reg32 r) }) d

/-- A 32-bit read of a register (R90); a read drives no write data. -/
def encodeRd32 (o : Offsets) (r : Reg32) : Coded :=
  .bus (packHeader { wr := false, size := .s32, off := BitVec.ofNat 12 (o.reg32 r) }) 0#32

/-- The words of an instruction (R81, R82, R90, R91), for offset parameters `o`. -/
def encode (o : Offsets) : Instr → Coded
  | .enable line => encodeL 0x0#4 line
  | .disable line => encodeL 0x1#4 line
  | .setpend line => encodeL 0x2#4 line
  | .clrpend line => encodeL 0x3#4 line
  | .isactive line => encodeL 0x4#4 line
  | .setpri line prio => .command (0x5#4 ++ 0#4 ++ prio ++ 0#8 ++ line)
  | .setgrp sel => .command (0x6#4 ++ 0#12 ++ sel)
  | .init => .command (0x7#4 ++ 0#28)
  | .wrEs b w => encodeWr32 o (.es b) w
  | .rdEs b => encodeRd32 o (.es b)
  | .wrEc b w => encodeWr32 o (.ec b) w
  | .rdEc b => encodeRd32 o (.ec b)
  | .wrPs b w => encodeWr32 o (.ps b) w
  | .rdPs b => encodeRd32 o (.ps b)
  | .wrPc b w => encodeWr32 o (.pc b) w
  | .rdPc b => encodeRd32 o (.pc b)
  | .rdAf b => encodeRd32 o (.af b)
  | .wrAf b w => encodeWr32 o (.af b) w
  | .wrPri n w =>
    .bus (packHeader { wr := true, size := .s8, off := BitVec.ofNat 12 (o.entry n.toNat) }) (w.setWidth 32)
  | .rdPri n => .bus (packHeader { wr := false, size := .s8, off := BitVec.ofNat 12 (o.entry n.toNat) }) 0#32
  | .wrGcfg w => encodeWr32 o .gcfg w
  | .rdGcfg => encodeRd32 o .gcfg

/-- The raw access, as an instruction, that is the same register access (R86, R150). -/
def Access.instr : Access → Instr
  | .wr32 r w => r.writeInstr w
  | .rd32 r => r.readInstr
  | .wr8 n w => .wrPri (BitVec.ofNat 6 n.val) w
  | .rd8 n => .rdPri (BitVec.ofNat 6 n.val)

/-! ### The opcode table's numbering -/

/-- The coded instruction whose bits are `w` as the opcode table numbers them: a row of 32 bits is a command word; a row
of 16 bits is a header, with its write data in the bits above it, 47:16 (log 12). -/
def codedOfTable (nbits w : Nat) : Option Coded :=
  if nbits = 32 then some (.command (BitVec.ofNat 32 w))
  else if nbits = 16 then some (.bus (BitVec.ofNat 16 w) 0#32)
  else if nbits = 48 then some (.bus (BitVec.ofNat 16 w) (BitVec.ofNat 32 (w / 2 ^ 16)))
  else none

/-- The instruction the decoder reads from a table row's word, with the suggested default offsets, with which the
table is written (R91) and which `State.reset` takes. -/
def decodeTableWord (nbits w : Nat) : Option Instr :=
  match codedOfTable nbits w with
  | none => none
  | some x =>
    match decode Config.offsets x with
    | .ok i => some i
    | .error _ => none

end Sys2Proof
end

