-- ==== Sys2Proof/Machine/State.lean ====
section
/-! DEFINITION. The state of the block (R20), the model's own fields beside it, the reasons a step can stop, and the
state after reset (R33 to R35). -/

namespace Sys2Proof.Machine

/-- What a step hands to its caller (R8, R220, R224). -/
inductive Response where
  /-- No step has been made yet. -/
  | none
  /-- The step is done and returns no value (R8). -/
  | done
  /-- The Boolean of ISACTIVE (R115). -/
  | bool (b : Bool)
  /-- The data of a 32-bit read (R90). -/
  | data32 (w : Word)
  /-- The data of an 8-bit read (R90). -/
  | data8 (w : Byte)
  /-- The operation was rejected: the error code with the operand it records (R220, R224). -/
  | rejected (e : OpError)
  /-- The event was not enabled and did not happen (R8, R199, R200; log 3). -/
  | notEnabled
  deriving DecidableEq, Repr

/-- The state of the block. -/
structure State where
  /-- `EN[0..59]` (R23): bit `i` is the enable flag of line `i`. -/
  en : Flags
  /-- `PEND[0..59]` (R24). -/
  pend : Flags
  /-- `ACT[0..59]` (R25). -/
  act : Flags
  /-- `PRI[0..59]` (R26). -/
  pri : Vector Byte 60
  /-- `MODE` (R28): "no value", the spec's own state, or a number 0..7. -/
  mode : Option (BitVec 3)
  /-- The seven register offsets (R5, R50): configuration, not one of the five pieces of R20. The machine decodes with
  them, no step changes them (log 10). -/
  offsets : Offsets
  /-- The model's own: the steps still to be made, the program of R22 from its index on (log 1). -/
  todo : List Input
  /-- The model's own: the index of R22, the number of steps made (log 1). -/
  idx : Nat
  /-- The model's own: what the latest step handed to its caller (log 4). -/
  resp : Response
  /-- The model's own: the register accesses the latest step made, in order (log 4). -/
  made : List Access
  deriving DecidableEq, Repr

/-- Why the machine stops with a fault. The spec has no machine-stopping fault (its errors are rejections, R224). -/
inductive Fault where
  /-- Raised by `step` when no step is left to make: the finite list of R22 is at its end. Safe: the model stops where
  nothing is asked of the block (log 2). -/
  | programEnded
  deriving DecidableEq, Repr

/-- Why a step is refused: the spec's *refuse*, "an input the sources give no meaning" (R10). All are safe: the model
gives no next state, so nothing can be proved of a run that goes through one. -/
inductive Refusal where
  /-- Raised by an arm of `exec` whose instruction has no meaning yet. Safe. -/
  | notModelled (mnemonic : String)
  /-- Raised by `step` on a coded instruction that decodes to nothing, and by WR_PRI and RD_PRI on an entry number
  60..63 (R83, R91, R166, R167). Safe. -/
  | invalid (e : DecodeError)
  /-- Raised by a key-matched write of `GCFG` with a 1 in bits 15:11 or 7:0 (R163 (c), decision D8). Safe. -/
  | keyedWriteNotClean
  /-- Raised by a read of `GCFG` while `MODE` has no value (R164, decision D7). Safe. -/
  | modeHasNoValue
  /-- Raised by TAKE while `MODE` is "no value", 0, 1 or 2 (R199, R201, decision D9). Safe. -/
  | modeHasNoSplit
  deriving DecidableEq, Repr

/-- What a step answers. -/
abbrev Result := Host.Outcome State Fault Refusal

/-- The state after reset of a machine with the offsets `o` (R50: "a model takes the seven offsets as configuration"):
flags and priorities zero (R34, decision D10, log 5), `MODE` the OPEN parameter `RESET_MODE` (R35, log 6), no program
(log 1), nothing handed to a caller yet (log 4). -/
def State.resetWith (o : Offsets) : State :=
  { en := 0#60
    pend := 0#60
    act := 0#60
    pri := Vector.replicate 60 0#8
    mode := Config.resetMode
    offsets := o
    todo := []
    idx := 0
    resp := .none
    made := [] }

/-- The state after reset with the suggested default offsets (R50, log 10). -/
def State.reset : State := State.resetWith Config.offsets

end Sys2Proof.Machine
end

