-- ==== Sys2Proof/Machine/Flags.lean ====
section
/-! DEFINITION. The flag arrays: one flag, the 32-bit bank views (R30, R31), and the write-1-to-set and write-1-to-clear
computations of the set and clear registers (R57, R151, R153, R155, R157). -/

namespace Sys2Proof.Machine

/-- The flag of line `i` (R23 to R25). -/
def flag (f : Flags) (i : Line) : Bool := f.getLsbD i.val

/-- The flags with that of line `i` made 1. -/
def setFlag (f : Flags) (i : Line) : Flags := f ||| (1#60 <<< i.val)

/-- The flags with that of line `i` made 0. -/
def clearFlag (f : Flags) (i : Line) : Flags := f &&& ~~~(1#60 <<< i.val)

/-- `ENW(b)`, `PENDW(b)`, `ACTW(b)` (R30): bit `k` is the flag of line `32b + k`, and 0 where there is no such line. -/
def bankView (f : Flags) (b : Bank) : Word := (f >>> (32 * b.val)).setWidth 32

/-- The lines that a word written to a bank names: line `32b + k` for each 1 bit `k`; bits 28..31 of bank 1 name no line
and fall off the top (R31, R150). -/
def bankLines (b : Bank) (w : Word) : Flags := (w.setWidth 60) <<< (32 * b.val)

/-- Write-1-to-set (R57): a written 1 sets its line's flag, a written 0 does nothing. -/
def setBank (f : Flags) (b : Bank) (w : Word) : Flags := f ||| bankLines b w

/-- Write-1-to-clear (R57): a written 1 clears its line's flag, a written 0 does nothing. -/
def clearBank (f : Flags) (b : Bank) (w : Word) : Flags := f &&& ~~~(bankLines b w)

end Sys2Proof.Machine
end

