-- ==== Sys2Proof/Machine/Operands.lean ====
section
/-! DEFINITION. The operands: the check of a line and its bank, bit and mask (R84, R85), the check of a mode selector
(R89), the grouping-configuration word and its fields (R88), the unlock check (R163). -/

namespace Sys2Proof.Machine

/-- `bank(line) = line / 32` (R84). -/
def bankOf (line : Nat) : Nat := line / 32

/-- `bitpos(line) = line % 32` (R84). -/
def bitposOf (line : Nat) : Nat := line % 32

/-- `mask(line) = 1 << bitpos(line)`, at 32 bits (R84). -/
def maskOf (line : Nat) : Word := 1#32 <<< bitposOf line

/-- `valid_line` (R85), made on the whole 8-bit operand: the line it names, if it is at most 59. -/
def checkLine (line : Byte) : Option Line :=
  if h : line.toNat < 60 then some ⟨line.toNat, h⟩ else none

/-- The entry number of a priority access (R91's extra condition, R167). -/
def checkEntry (n : BitVec 6) : Option Line :=
  if h : n.toNat < 60 then some ⟨n.toNat, h⟩ else none

/-- The bank of a line that exists, as the bank register it selects (R84, R86). -/
def lineBank (i : Line) : Bank := ⟨bankOf i.val, by unfold bankOf; omega⟩

/-- The number `MODE` takes for a mode (R28, R89). -/
def modeBits : GroupMode → BitVec 3
  | .g4s0 => 3#3
  | .g3s1 => 4#3
  | .g2s2 => 5#3
  | .g1s3 => 6#3
  | .g0s4 => 7#3

/-- The mode that a value of `MODE` stands for; 0, 1 and 2 have no defined split (R28, R201). -/
def modeOfBits (m : BitVec 3) : Option GroupMode :=
  match m.toNat with
  | 3 => some .g4s0
  | 4 => some .g3s1
  | 5 => some .g2s2
  | 6 => some .g1s3
  | 7 => some .g0s4
  | _ => none

/-- The mode selector of a mode (R89). -/
def selectorOf : GroupMode → Half
  | .g4s0 => 0x0300#16
  | .g3s1 => 0x0400#16
  | .g2s2 => 0x0500#16
  | .g1s3 => 0x0600#16
  | .g0s4 => 0x0700#16

/-- Every grouping mode (R89). -/
def allModes : List GroupMode := [.g4s0, .g3s1, .g2s2, .g1s3, .g0s4]

/-- `valid_sel` (R89): the mode that a selector names, if it is one of the five. -/
def checkSel (sel : Half) : Option GroupMode := allModes.find? (fun m => selectorOf m == sel)

/-- `gword(sel) = (UNLOCK_KEY << 16) | zext_32(sel)` (R88). -/
def gword (sel : Half) : Word := (Config.unlockKey.setWidth 32 <<< 16) ||| sel.setWidth 32

/-- `KEY`, bits 31:16 of a word written to `GCFG` (R88). -/
def keyField (w : Word) : Half := w.extractLsb' 16 16

/-- `M`, bits 10:8 of a word written to `GCFG` (R88, R163). -/
def modeField (w : Word) : BitVec 3 := w.extractLsb' 8 3

/-- Bits 15:11 and 7:0 of a word written to `GCFG` are zero (R163). -/
def gcfgClean (w : Word) : Bool := w.extractLsb' 11 5 == 0#5 && w.extractLsb' 0 8 == 0#8

/-- The unlock-key state machine (R163, R165), for the key `key`: `MODE` after a write of `w`, or `none` where the write
is refused. A wrong key changes nothing, whatever the other bits hold; a right key with clean other bits stores `M`,
whatever `M` is. It keeps no memory but `MODE` (R32). -/
def unlockNext (key : Half) (w : Word) (mode : Option (BitVec 3)) : Option (Option (BitVec 3)) :=
  if !gcfgClean w && keyField w == key then none
  else some (if keyField w = key then some (modeField w) else mode)

/-- `GCFG` as it reads while `MODE` is `m` (R164). -/
def gcfgRead (m : BitVec 3) : Word := (Config.keyRead.setWidth 32 <<< 16) ||| (m.setWidth 32 <<< 8)

/-- The numeric code of an error (R220); 0 is `OK`. -/
def errorCode : OpError → BitVec 2
  | .invalidLine _ => 1#2
  | .invalidPriorityValue _ => 2#2
  | .invalidGroupingMode _ => 3#2

/-- The status an operation returns with a response: `OK` is 0, a rejection is its error's code (R220). -/
def statusCode : Response → BitVec 2
  | .none => 0#2
  | .done => 0#2
  | .bool _ => 0#2
  | .data32 _ => 0#2
  | .data8 _ => 0#2
  | .rejected e => errorCode e
  | .notEnabled => 0#2

/-- The value an error records, `info` of `raise E(info)` (R220). -/
def errorInfo : OpError → Nat
  | .invalidLine line => line.toNat
  | .invalidPriorityValue prio => prio.toNat
  | .invalidGroupingMode sel => sel.toNat

end Sys2Proof.Machine
end

