-- ==== Sys2Proof/Machine/Ops.lean ====
section
/-! DEFINITION. The named operations: reading and updating one field of the state, the register reads and writes
(`RegRead`, `RegWrite` of R7, with R29's meaning of each register), the rejection of an operation (R224, "the block's
'trap entry' for errors"), and the block's part of the delivery of an interrupt and of the return from its handler
(R228, R229). -/

namespace Sys2Proof.Machine

/-! ### Reading one piece of state -/

/-- `EN[i]` (R23). -/
def State.enabled (s : State) (i : Line) : Bool := flag s.en i

/-- `PEND[i]` (R24). -/
def State.pending (s : State) (i : Line) : Bool := flag s.pend i

/-- `ACT[i]` (R25). -/
def State.active (s : State) (i : Line) : Bool := flag s.act i

/-- `PRI[i]` (R26). -/
def State.prio (s : State) (i : Line) : Byte := s.pri[i.val]

/-! ### Updating one piece of state -/

/-- The state with the enable flags `f`. -/
def State.withEn (s : State) (f : Flags) : State := { s with en := f }

/-- The state with the pending flags `f`. -/
def State.withPend (s : State) (f : Flags) : State := { s with pend := f }

/-- The state with the active flags `f`. -/
def State.withAct (s : State) (f : Flags) : State := { s with act := f }

/-- `PRI[i] <- v`: the whole byte, no other entry (R26, R161). -/
def State.withPrio (s : State) (i : Line) (v : Byte) : State := { s with pri := s.pri.set i.val v i.isLt }

/-- The state with the grouping mode `m`. -/
def State.withMode (s : State) (m : Option (BitVec 3)) : State := { s with mode := m }

/-- The state in which the step has made no access yet. -/
def State.start (s : State) : State := { s with made := [] }

/-- The state in which the step has made one more access. -/
def State.record (s : State) (a : Access) : State := { s with made := s.made ++ [a] }

/-- The state that hands `r` to the caller. -/
def State.reply (s : State) (r : Response) : State := { s with resp := r }

/-! ### Register accesses -/

/-- `RegWrite(r, w)` for a 32-bit register (R151, R153, R155, R157, R160, R163): the next state, with the access
recorded, or the refusal of a key-matched write that is not clean. -/
def write32 (r : Reg32) (w : Word) (s : State) : Except Refusal State :=
  match r with
  | .es b => .ok ((s.withEn (setBank s.en b w)).record (.wr32 (.es b) w))
  | .ec b => .ok ((s.withEn (clearBank s.en b w)).record (.wr32 (.ec b) w))
  | .ps b => .ok ((s.withPend (setBank s.pend b w)).record (.wr32 (.ps b) w))
  | .pc b => .ok ((s.withPend (clearBank s.pend b w)).record (.wr32 (.pc b) w))
  | .af b => .ok (s.record (.wr32 (.af b) w))
  | .gcfg =>
    match unlockNext Config.unlockKey w s.mode with
    | some m => .ok ((s.withMode m).record (.wr32 .gcfg w))
    | none => .error .keyedWriteNotClean

/-- The value a read of a 32-bit register returns (R29, R30, R152, R154, R156, R158, R159, R164); the read of `GCFG`
is refused while `MODE` is "no value", as R164 says in those words (R10, D7, U12). -/
def value32 (r : Reg32) (s : State) : Except Refusal Word :=
  match r with
  | .es b => .ok (bankView s.en b)
  | .ec b => .ok (bankView s.en b)
  | .ps b => .ok (bankView s.pend b)
  | .pc b => .ok (bankView s.pend b)
  | .af b => .ok (bankView s.act b)
  | .gcfg =>
    match s.mode with
    | some m => .ok (gcfgRead m)
    | none => .error .modeHasNoValue

/-- `RegWrite(PRI[i], v)` (R161). -/
def write8 (i : Line) (v : Byte) (s : State) : State := (s.withPrio i v).record (.wr8 i v)

/-- A step that is one 32-bit write (R150) and returns no value (R8). -/
def writeStep (r : Reg32) (w : Word) (s : State) : Result :=
  match write32 r w s.start with
  | .ok t => .next (t.reply .done)
  | .error e => .refused e

/-- A step that is one 32-bit read; `reply` makes the caller's answer of the value read. No read changes the block's
state (R56). -/
def readStep (r : Reg32) (reply : Word → Response) (s : State) : Result :=
  match value32 r s with
  | .ok v => .next ((s.start.record (.rd32 r)).reply (reply v))
  | .error e => .refused e

/-- A step that is one 8-bit write of a priority entry (R161). -/
def writePriStep (i : Line) (v : Byte) (s : State) : Result := .next ((write8 i v s.start).reply .done)

/-- A step that is one 8-bit read of a priority entry (R162). -/
def readPriStep (i : Line) (s : State) : Result :=
  .next ((s.start.record (.rd8 i)).reply (.data8 (s.prio i)))

/-! ### Rejection, delivery, return -/

/-- The rejection of an operation (R224): no state changes, no access is made, the caller receives the error. There is
no handler, no vector, no saved register and no return from it. -/
def reject (e : OpError) (s : State) : Result := .next (s.start.reply (.rejected e))

/-- The common shape of the operations on a line (R110): the check first, on the whole operand; then `act`. -/
def onLine (line : Byte) (act : Line → State → Result) (s : State) : Result :=
  match checkLine line with
  | some i => act i s
  | none => reject (.invalidLine line) s

/-- The block's part of the delivery of line `w` (R199, R228): `PEND[w] <- 0; ACT[w] <- 1`. It saves nothing, changes no
mode and no mask, and knows no vector. -/
def deliver (w : Line) (s : State) : State := (s.withPend (clearFlag s.pend w)).withAct (setFlag s.act w)

/-- The block's part of the return from the handler of line `i` (R200, R229): `ACT[i] <- 0`. -/
def retire (i : Line) (s : State) : State := s.withAct (clearFlag s.act i)

end Sys2Proof.Machine
end

