-- ==== Sys2Proof/Machine/BusRegs.lean ====
section
/-! DEFINITION. The fourteen raw register accesses (42_bus_register_ops.md, R150 to R165). -/

namespace Sys2Proof.Machine

/-- WR_ES (R151). -/
def execWrEs (b : Bank) (w : Word) (s : State) : Result := writeStep (.es b) w s

/-- RD_ES (R152). -/
def execRdEs (b : Bank) (s : State) : Result := readStep (.es b) .data32 s

/-- WR_EC (R153). -/
def execWrEc (b : Bank) (w : Word) (s : State) : Result := writeStep (.ec b) w s

/-- RD_EC (R154). -/
def execRdEc (b : Bank) (s : State) : Result := readStep (.ec b) .data32 s

/-- WR_PS (R155). -/
def execWrPs (b : Bank) (w : Word) (s : State) : Result := writeStep (.ps b) w s

/-- RD_PS (R156). -/
def execRdPs (b : Bank) (s : State) : Result := readStep (.ps b) .data32 s

/-- WR_PC (R157). -/
def execWrPc (b : Bank) (w : Word) (s : State) : Result := writeStep (.pc b) w s

/-- RD_PC (R158). -/
def execRdPc (b : Bank) (s : State) : Result := readStep (.pc b) .data32 s

/-- RD_AF (R159). -/
def execRdAf (b : Bank) (s : State) : Result := readStep (.af b) .data32 s

/-- WR_AF (R160): done and ignored. -/
def execWrAf (b : Bank) (w : Word) (s : State) : Result := writeStep (.af b) w s

/-- WR_PRI (R161); an entry number 60..63 reaches no register (R167). -/
def execWrPri (n : BitVec 6) (w : Byte) (s : State) : Result :=
  match checkEntry n with
  | some i => writePriStep i w s
  | none => .refused (.invalid .unmapped)

/-- RD_PRI (R162); an entry number 60..63 reaches no register (R167). -/
def execRdPri (n : BitVec 6) (s : State) : Result :=
  match checkEntry n with
  | some i => readPriStep i s
  | none => .refused (.invalid .unmapped)

/-- WR_GCFG (R163, R165): the unlock-key state machine. -/
def execWrGcfg (w : Word) (s : State) : Result := writeStep .gcfg w s

/-- RD_GCFG (R164). -/
def execRdGcfg (s : State) : Result := readStep .gcfg .data32 s

end Sys2Proof.Machine
end

