-- ==== Sys2Proof/Machine/LineOps.lean ====
section
/-! DEFINITION. The line operations (40_line_ops.md, R110 to R115): the check of the line, then one access (R86). -/

namespace Sys2Proof.Machine

/-- ENABLE (R111): `RegWrite(ES[bank(line)], mask(line))`. -/
def execEnable (line : Byte) (s : State) : Result :=
  onLine line (fun i => writeStep (.es (lineBank i)) (maskOf i.val)) s

/-- DISABLE (R112): `RegWrite(EC[bank(line)], mask(line))`. -/
def execDisable (line : Byte) (s : State) : Result :=
  onLine line (fun i => writeStep (.ec (lineBank i)) (maskOf i.val)) s

/-- SETPEND (R113): `RegWrite(PS[bank(line)], mask(line))`. -/
def execSetpend (line : Byte) (s : State) : Result :=
  onLine line (fun i => writeStep (.ps (lineBank i)) (maskOf i.val)) s

/-- CLRPEND (R114): `RegWrite(PC[bank(line)], mask(line))`. -/
def execClrpend (line : Byte) (s : State) : Result :=
  onLine line (fun i => writeStep (.pc (lineBank i)) (maskOf i.val)) s

/-- ISACTIVE (R115): `v <- RegRead(AF[bank(line)]); return v[bitpos(line)]`. -/
def execIsactive (line : Byte) (s : State) : Result :=
  onLine line (fun i => readStep (.af (lineBank i)) (fun v => .bool (v.getLsbD (bitposOf i.val)))) s

end Sys2Proof.Machine
end

