-- ==== Sys2Proof/Machine/PriorityOps.lean ====
section
/-! DEFINITION. The priority operations (41_priority_ops.md, R130 to R132). -/

namespace Sys2Proof.Machine

/-- SETPRI (R130): `RegWrite(PRI[line], prio)`; every byte is accepted, unmasked. -/
def execSetpri (line prio : Byte) (s : State) : Result := onLine line (fun i => writePriStep i prio) s

/-- SETGRP (R131): the selector is checked first; then `RegWrite(GCFG, gword(sel))`, key and mode in one write. -/
def execSetgrp (sel : Half) (s : State) : Result :=
  match checkSel sel with
  | some _ => writeStep .gcfg (gword sel) s
  | none => reject (.invalidGroupingMode sel) s

/-- INIT (R132): `RegWrite(GCFG, gword(INIT_MODE))` and nothing else. -/
def execInit (s : State) : Result := writeStep .gcfg (gword (selectorOf Config.initMode)) s

end Sys2Proof.Machine
end

