-- ==== Sys2Proof/Machine/Dispatch.lean ====
section
/-! DEFINITION. The meaning of every instruction, one arm per constructor. -/

namespace Sys2Proof.Machine

/-- Runs one instruction: each arm is one direct call of that instruction's meaning. -/
def exec (i : Instr) (s : State) : Host.Outcome State Fault Refusal :=
  match i with
  | .enable line => Sys2Proof.Machine.execEnable line s
  | .disable line => Sys2Proof.Machine.execDisable line s
  | .setpend line => Sys2Proof.Machine.execSetpend line s
  | .clrpend line => Sys2Proof.Machine.execClrpend line s
  | .isactive line => Sys2Proof.Machine.execIsactive line s
  | .setpri line prio => Sys2Proof.Machine.execSetpri line prio s
  | .setgrp sel => Sys2Proof.Machine.execSetgrp sel s
  | .init => Sys2Proof.Machine.execInit s
  | .wrEs b w => Sys2Proof.Machine.execWrEs b w s
  | .rdEs b => Sys2Proof.Machine.execRdEs b s
  | .wrEc b w => Sys2Proof.Machine.execWrEc b w s
  | .rdEc b => Sys2Proof.Machine.execRdEc b s
  | .wrPs b w => Sys2Proof.Machine.execWrPs b w s
  | .rdPs b => Sys2Proof.Machine.execRdPs b s
  | .wrPc b w => Sys2Proof.Machine.execWrPc b w s
  | .rdPc b => Sys2Proof.Machine.execRdPc b s
  | .rdAf b => Sys2Proof.Machine.execRdAf b s
  | .wrAf b w => Sys2Proof.Machine.execWrAf b w s
  | .wrPri n w => Sys2Proof.Machine.execWrPri n w s
  | .rdPri n => Sys2Proof.Machine.execRdPri n s
  | .wrGcfg w => Sys2Proof.Machine.execWrGcfg w s
  | .rdGcfg => Sys2Proof.Machine.execRdGcfg s

end Sys2Proof.Machine
end

