-- ==== Sys2Proof/Machine/PriorityEncoder.lean ====
section
/-! DEFINITION. The priority encoder (R190 to R197, R201): pure functions of the state. Nothing is latched (R202). -/

namespace Sys2Proof.Machine

/-! ### The split of a priority byte -/

/-- `g = 7 - m`, the number of group bits of a mode (R89). -/
def groupBits (m : GroupMode) : Nat := 7 - (modeBits m).toNat

/-- `s = m - 3`, the number of sub bits of a mode (R89). -/
def subBits (m : GroupMode) : Nat := (modeBits m).toNat - 3

/-- `grp(m, p) = p >> (m + 1)` (R190). -/
def grp (m : GroupMode) (p : Byte) : Byte := p >>> ((modeBits m).toNat + 1)

/-- `sub(m, p) = (p >> 4) & ((1 << s) - 1)` (R190). -/
def sub (m : GroupMode) (p : Byte) : Byte := (p >>> 4) &&& ((1#8 <<< subBits m) - 1#8)

/-- `key4(p) = p[7:4]` (R192). -/
def key4 (p : Byte) : BitVec 4 := p.extractLsb' 4 4

/-- `prienc(m, G, S) = ((G << s) | S) << 4` (R133): how software composes a priority byte; the block never computes it. -/
def prienc (m : GroupMode) (g s : Byte) : Byte := ((g <<< subBits m) ||| s) <<< 4

/-! ### Arbitration -/

/-- Line `a` is more urgent than line `b` (R192): a lower group priority; or equal groups and a lower sub-priority; or
both equal and a lower line number. -/
def moreUrgent (m : GroupMode) (s : State) (a b : Line) : Bool :=
  decide ((grp m (s.prio a)).toNat < (grp m (s.prio b)).toNat) ||
    (grp m (s.prio a) == grp m (s.prio b) &&
      (decide ((sub m (s.prio a)).toNat < (sub m (s.prio b)).toNat) ||
        (sub m (s.prio a) == sub m (s.prio b) && decide (a.val < b.val))))

/-- Line `i` is a candidate (R193): enabled and pending, active or not. -/
def candidate (s : State) (i : Line) : Bool := s.enabled i && s.pending i

/-- The most urgent line of a list. -/
def mostUrgent (m : GroupMode) (s : State) : List Line → Option Line
  | [] => none
  | i :: rest =>
    match mostUrgent m s rest with
    | none => some i
    | some j => if moreUrgent m s j i then some j else some i

/-- `cand` (R193), in the order of the line numbers. -/
def candidates (s : State) : List Line := (List.finRange 60).filter (candidate s)

/-- `winner` (R194) under the mode `m`. -/
def winner (m : GroupMode) (s : State) : Option Line := mostUrgent m s (candidates s)

/-- Line `w` may preempt every active line (R195): its group priority is strictly less than each of theirs. -/
def mayPreempt (m : GroupMode) (s : State) (w : Line) : Bool :=
  (List.finRange 60).all fun j => !s.active j || decide ((grp m (s.prio w)).toNat < (grp m (s.prio j)).toNat)

/-- `preempt_ok` (R195) under the mode `m`. -/
def preemptOk (m : GroupMode) (s : State) : Bool :=
  match winner m s with
  | some w => mayPreempt m s w
  | none => false

/-- The grouping mode in force, if `MODE` has a defined split (R201). -/
def definedMode (s : State) : Option GroupMode :=
  match s.mode with
  | some m => modeOfBits m
  | none => none

/-- The encoder's outputs (R196). -/
structure Outputs where
  /-- `irq_valid` = `preempt_ok`. -/
  irqValid : Bool
  /-- `irq_line` = `winner`, meaningful only when there is one. -/
  irqLine : Option Line
  /-- `irq_pending`: there is a winner. -/
  irqPending : Bool
  deriving DecidableEq, Repr

/-- The outputs as functions of the state (R196); they have no value while `MODE` has no defined split (R201). -/
def outputs (s : State) : Option Outputs :=
  match definedMode s with
  | none => none
  | some m =>
    some { irqValid := preemptOk m s, irqLine := winner m s, irqPending := (winner m s).isSome }

end Sys2Proof.Machine
end

