-- ==== Sys2Proof/Machine/Events.lean ====
section
/-! DEFINITION. The environment events (R198 to R200). An event makes no register access. One that is not enabled does
not happen: the block's state stays and the caller of the step is told so (log 3). -/

namespace Sys2Proof.Machine

/-- IRQ i (R198): `PEND[i] <- 1`, always enabled. -/
def execIrq (i : Line) (s : State) : Result := .next ((s.start.withPend (setFlag s.pend i)).reply .done)

/-- An event that is not enabled (R8). -/
def eventNotEnabled (s : State) : Result := .next (s.start.reply .notEnabled)

/-- TAKE (R199): refused while `MODE` has no defined split (R201); enabled when `preempt_ok`; then the winner is
delivered. -/
def execTake (s : State) : Result :=
  match definedMode s with
  | none => .refused .modeHasNoSplit
  | some m =>
    match winner m s with
    | none => eventNotEnabled s
    | some w => if mayPreempt m s w then .next ((deliver w s.start).reply .done) else eventNotEnabled s

/-- RET i (R200): enabled when `ACT[i] = 1`; then `ACT[i] <- 0`. -/
def execRet (i : Line) (s : State) : Result :=
  if s.active i then .next ((retire i s.start).reply .done) else eventNotEnabled s

/-- The step of an event. -/
def execEvent (e : Event) (s : State) : Result :=
  match e with
  | .irq i => execIrq i s
  | .take => execTake s
  | .ret i => execRet i s

end Sys2Proof.Machine
end

