-- ==== Sys2Proof/Machine/Fetch.lean ====
section
/-! DEFINITION. Where the next step comes from: the head of the list of steps still to be made (R22; log 1). -/

namespace Sys2Proof.Machine

/-- The next input and the state in which it has been taken off the list, the index one further (R22). -/
def fetch (s : State) : Option (Input × State) :=
  match s.todo with
  | [] => none
  | x :: rest => some (x, { s with todo := rest, idx := s.idx + 1 })

/-- The state with `x` in the place from which the next input is fetched. -/
def placeNext (x : Input) (s : State) : State := { s with todo := x :: s.todo.tail }

end Sys2Proof.Machine
end

