-- ==== Sys2Proof/Machine/Step.lean ====
section
/-! DEFINITION. One step of the machine (R8, R22), and where a coded instruction is placed to be run next. -/

namespace Sys2Proof.Machine

/-- One step: the next input is an event, or a coded instruction that is decoded, with the machine's
offsets (R50), and run. A coded instruction that decodes to nothing is refused (R10, R83, R166, R167); with no input left
the machine stops (log 2). -/
def step (s : State) : Host.Outcome State Fault Refusal :=
  match fetch s with
  | none => .fault .programEnded
  | some (.event e, t) => execEvent e t
  | some (.master x, t) =>
    match decode s.offsets x with
    | .ok i => exec i t
    | .error e => .refused (.invalid e)

/-- The state in which the coded instruction with the table bits `w` is the next step; every other field is as it was.
A width that no row of the table has leaves the state unchanged. -/
def State.withFetchWord (s : State) (nbits w : Nat) : State :=
  match codedOfTable nbits w with
  | some x => placeNext (.master x) s
  | none => s

end Sys2Proof.Machine
end

