-- ==== Sys2Proof/Safety.lean ====
section
/-! DEFINITION. The terms in which claims about runs are made: what the next step will run, what a read shows, when an
answer and the accesses of a step agree, and the invariants. -/

namespace Sys2Proof

open Sys2Proof.Machine

/-- The instruction that the next step runs, if that step is a coded instruction with a meaning. -/
def nextInstr (s : State) : Option Instr :=
  match s.todo with
  | .master x :: _ =>
    match decode s.offsets x with
    | .ok i => some i
    | .error _ => none
  | _ => none

/-- The event that the next step is, if it is one. -/
def nextEvent (s : State) : Option Event :=
  match s.todo with
  | .event e :: _ => some e
  | _ => none

/-- The word `v` shows the flags `f` of bank `b` (R30): the bit of each line of the bank is its flag, and a bit that
names no line is 0. -/
def ShowsBank (v : Word) (b : Bank) (f : Line → Bool) : Prop :=
  (∀ i : Line, i.val / 32 = b.val → v.getLsbD (i.val % 32) = f i) ∧
    (∀ k, 60 ≤ 32 * b.val + k → v.getLsbD k = false)

/-- The written word `w` has a 1 at the bit of line `i` in bank `b` (R29). -/
def Names (b : Bank) (w : Word) (i : Line) : Prop := i.val / 32 = b.val ∧ w.getLsbD (i.val % 32) = true

/-- A selector is one of the five of R89. -/
def IsSelector (sel : Half) : Prop :=
  sel = 0x0300#16 ∨ sel = 0x0400#16 ∨ sel = 0x0500#16 ∨ sel = 0x0600#16 ∨ sel = 0x0700#16

/-- A word written to `GCFG` has all of bits 15:11 and 7:0 zero (R88, R163). -/
def IsClean (w : Word) : Prop := w.extractLsb' 11 5 = 0#5 ∧ w.extractLsb' 0 8 = 0#8

/-- `MODE` is in 3..7: it has a defined split (R201). -/
def ModeDefined (s : State) : Prop := ∃ m : BitVec 3, s.mode = some m ∧ 3 ≤ m.toNat

/-- The order of R192 on lines, written out: group, then sub-priority, then line number. -/
def LexBefore (m : GroupMode) (s : State) (a b : Line) : Prop :=
  (grp m (s.prio a)).toNat < (grp m (s.prio b)).toNat ∨
    ((grp m (s.prio a)).toNat = (grp m (s.prio b)).toNat ∧
      ((sub m (s.prio a)).toNat < (sub m (s.prio b)).toNat ∨
        ((sub m (s.prio a)).toNat = (sub m (s.prio b)).toNat ∧ a.val < b.val)))

/-- Two states agree on the spec's five pieces of state (R20). -/
def SameBlock (s t : State) : Prop :=
  s.en = t.en ∧ s.pend = t.pend ∧ s.act = t.act ∧ s.pri = t.pri ∧ s.mode = t.mode

/-- An access that a step has made has taken effect in the state after it (R58 (a), R231). -/
def TookEffect (s : State) : Access → Prop
  | .wr32 (.es b) w => ∀ i : Line, Names b w i → s.enabled i = true
  | .wr32 (.ec b) w => ∀ i : Line, Names b w i → s.enabled i = false
  | .wr32 (.ps b) w => ∀ i : Line, Names b w i → s.pending i = true
  | .wr32 (.pc b) w => ∀ i : Line, Names b w i → s.pending i = false
  | .wr32 (.af _) _ => True
  | .wr32 .gcfg w => w.extractLsb' 16 16 = Config.unlockKey → IsClean w ∧ s.mode = some (w.extractLsb' 8 3)
  | .rd32 _ => True
  | .wr8 n v => s.prio n = v
  | .rd8 n => s.resp = .data8 (s.prio n)

/-- What a caller is told agrees with the accesses made (R8, R86, R221 to R224): an error goes with no access and with
an operand that is bad, and InvalidPriorityValue never occurs (R222); read data goes with one access. -/
def AnswerFits (s : State) : Prop :=
  match s.resp with
  | .none => s.made = []
  | .done => s.made.length ≤ 1
  | .bool _ => ∃ b, s.made = [.rd32 (.af b)]
  | .data32 _ => ∃ r, s.made = [.rd32 r]
  | .data8 _ => ∃ n, s.made = [.rd8 n]
  | .rejected (.invalidLine line) => s.made = [] ∧ 60 ≤ line.toNat
  | .rejected (.invalidPriorityValue _) => False
  | .rejected (.invalidGroupingMode sel) => s.made = [] ∧ ¬ IsSelector sel
  | .notEnabled => s.made = []

/-- The invariant of every step's answer: it fits the accesses, there is at most one access (R55, R86), and every access
made has taken effect. -/
def Accounted (s : State) : Prop := AnswerFits s ∧ s.made.length ≤ 1 ∧ ∀ a ∈ s.made, TookEffect s a

/-- The invariant of a run without raw writes of `GCFG`: `MODE` is defined, and no step to come is such a write. -/
def ModeGuarded (s : State) : Prop :=
  ModeDefined s ∧ ∀ x, Input.master x ∈ s.todo → ∀ w, decode s.offsets x ≠ .ok (.wrGcfg w)

/-- The invariant of a run without TAKE: no line is active, and no step to come is a TAKE. -/
def NeverTaken (s : State) : Prop := (∀ i : Line, s.active i = false) ∧ Input.event .take ∉ s.todo

end Sys2Proof
end

