-- ==== Sys2Proof/Certificates/Slice0/Obligations.lean ====
section
/-! DEFINITION. The statements about the block. A clause that gives an encoding is about the decoder, with the words as
the spec's rules write them (R81, R82; R90, R91 with the suggested default offsets), which are its decisions D2 to D4. -/

open Sys2Proof Sys2Proof.Machine

/-- For all offset parameters that keep the registers disjoint and within 12 bits, and every well-formed instruction with
any operands, the decoder reads from the encoder's words exactly that instruction. (Rests on: 30_encoding.md sections
1 and 4 (command words and headers, decisions D2, D3), 20_memory.md section 1 (offset parameters, decision D4).) -/
def Obligations.DecodeOfEncodeIsTheInstruction : Prop :=
  ∀ (o : Offsets) (i : Instr), o.wellFormed = true → i.wellFormed = true → decode o (encode o i) = .ok i

/-- For all admissible offsets: if a command word decodes to i, then i is well formed and encode i is that word; if a
header with write data decodes to i, then i is well formed and encode i has that header (so no two words mean one
instruction, and no don't-care bit exists). (Rests on: 30_encoding.md sections 1 and 4 (decisions D2, D3),
20_memory.md section 1 (decision D4).) -/
def Obligations.EncodeOfDecodeIsTheWord : Prop :=
  ∀ (o : Offsets) (i : Instr), o.wellFormed = true →
    (∀ w, decode o (.command w) = .ok i → i.wellFormed = true ∧ encode o i = .command w) ∧
    (∀ h d, decode o (.bus h d) = .ok i → i.wellFormed = true ∧ ∃ d', encode o i = .bus h d')

/-- For every 32-bit word and all offsets: it decodes to some instruction if and only if bits 27:24 are 0 and either OP is
0..4 with bits 23:8 zero, or OP is 5 with bits 15:8 zero, or OP is 6 with bits 23:16 zero, or OP is 7 with bits 23:0
zero. (Rests on: 30_encoding.md section 1 (reserved command words, decision D2).) -/
def Obligations.ReservedCommandWordsDecodeToNothing : Prop :=
  ∀ (o : Offsets) (w : Word),
    (∃ i, decode o (.command w) = .ok i) ↔
      (w.extractLsb' 24 4 = 0#4 ∧
        (((w.extractLsb' 28 4).toNat ≤ 4 ∧ w.extractLsb' 8 16 = 0#16) ∨
          (w.extractLsb' 28 4 = 5#4 ∧ w.extractLsb' 8 8 = 0#8) ∨
          (w.extractLsb' 28 4 = 6#4 ∧ w.extractLsb' 16 8 = 0#8) ∨
          (w.extractLsb' 28 4 = 7#4 ∧ w.extractLsb' 0 24 = 0#24)))

/-- With the suggested default offsets (PRESUMED, log 10): eight command words of V2, one of each operation, and seven
headers of V5 decode to the listed instructions, and one command word (0x70000001) and two headers (0x843C, 0x9D0C)
decode to nothing. The names under which these three are refused are the model's (log 24). (Rests on:
95_test_vectors.md V2 and V5 (decisions D2, D3, D4).) -/
def Obligations.SpecWordsDecodeAsListed : Prop :=
  decode Config.offsets (.command 0x00000025#32) = .ok (.enable 37#8) ∧
    decode Config.offsets (.command 0x1000001F#32) = .ok (.disable 31#8) ∧
    decode Config.offsets (.command 0x20000003#32) = .ok (.setpend 3#8) ∧
    decode Config.offsets (.command 0x30000003#32) = .ok (.clrpend 3#8) ∧
    decode Config.offsets (.command 0x40000025#32) = .ok (.isactive 37#8) ∧
    decode Config.offsets (.command 0x50500025#32) = .ok (.setpri 37#8 0x50#8) ∧
    decode Config.offsets (.command 0x6000DEAD#32) = .ok (.setgrp 0xDEAD#16) ∧
    decode Config.offsets (.command 0x70000000#32) = .ok .init ∧
    decode Config.offsets (.bus 0xA104#16 0x20#32) = .ok (.wrEs 1 0x20#32) ∧
    decode Config.offsets (.bus 0x2180#16 0#32) = .ok (.rdEc 0) ∧
    decode Config.offsets (.bus 0xA280#16 0x1#32) = .ok (.wrPc 0 0x1#32) ∧
    decode Config.offsets (.bus 0x843B#16 0xA7#32) = .ok (.wrPri 59#6 0xA7#8) ∧
    decode Config.offsets (.bus 0x043B#16 0#32) = .ok (.rdPri 59#6) ∧
    decode Config.offsets (.bus 0xAD0C#16 0x05FA0500#32) = .ok (.wrGcfg 0x05FA0500#32) ∧
    decode Config.offsets (.bus 0x2D0C#16 0#32) = .ok .rdGcfg ∧
    decode Config.offsets (.command 0x70000001#32) = .error .reservedBits ∧
    decode Config.offsets (.bus 0x843C#16 0#32) = .error .unmapped ∧
    decode Config.offsets (.bus 0x9D0C#16 0#32) = .error .wrongWidth

/-- If the next input is a coded instruction that decodes, under the offsets of the state, to a well-formed i, step is
exec i at the state without that input and with the index one further; if the next input is an event, step is that
event's meaning there. The list and the index are the model's own (log 1). (Rests on: 10_state.md section 1 (program
and index, decision D24), 00_scope.md section 4 (outcome of a step).) -/
def Obligations.StepRunsTheDecodedInstruction : Prop :=
  (∀ (s : State) (x : Coded) (rest : List Input) (i : Instr),
    s.todo = .master x :: rest → decode s.offsets x = .ok i → i.wellFormed = true →
      step s = exec i { s with todo := rest, idx := s.idx + 1 }) ∧
    (∀ (s : State) (e : Event) (rest : List Input),
      s.todo = .event e :: rest → step s = execEvent e { s with todo := rest, idx := s.idx + 1 })

/-- For every state: if step answers a next state t, then t's index is one more and t's list is the list without its head,
whatever the step's outcome for its caller was. The list and the index are the model's own (log 1); that they also
advance at an event that is not enabled is the model's choice (log 3). (Rests on: 10_state.md section 1 (decision
D24).) -/
def Obligations.StepTakesOneInputOff : Prop :=
  ∀ s t : State, step s = .next t → t.idx = s.idx + 1 ∧ ∃ x, s.todo = x :: t.todo

/-- For every state: step faults if and only if the list is empty (model's choice, log 2); step is refused if and only if
the next input is a coded instruction that does not decode, or a key-matched GCFG write with bits 15:11 or 7:0 not all
zero, or a GCFG read while MODE has no value, or a TAKE while MODE is not 3..7. That an event that is not enabled is
neither a fault nor a refusal is the model's choice (log 3). (Rests on: 93_implementation_defined.md Part 1 (U5, U6,
U12 to U15), 00_scope.md section 4 (refuse).) -/
def Obligations.StopsAreExactlyTheSpecsRefusals : Prop :=
  ∀ s : State,
    ((∃ f, step s = .fault f) ↔ s.todo = []) ∧
    ((∃ r, step s = .refused r) ↔
      ((∃ x rest e, s.todo = .master x :: rest ∧ decode s.offsets x = .error e) ∨
        (∃ w, nextInstr s = some (.wrGcfg w) ∧ w.extractLsb' 16 16 = Config.unlockKey ∧ ¬ IsClean w) ∨
        (nextInstr s = some .rdGcfg ∧ s.mode = none) ∨
        (nextEvent s = some .take ∧ ¬ ModeDefined s)))

/-- The word 0x00000000 | line decodes to the operation. For a line 0..59 it completes from every state: the line's enable
flag is true and every other line's is as before, the one access made is the 32-bit write of 1 << (line % 32) to
ES[line / 32], no value is returned, and nothing else changes. The line is then a candidate of the arbitration exactly
if it is pending. For line >= 60 it is rejected with InvalidLine(line): no access, nothing changed. (Stated: R111.) -/
def Obligations.EnableSetsOnlyItsLine : Prop :=
  (∀ (o : Offsets) (line : Byte), decode o (.command (0x00000000#32 ||| line.setWidth 32)) = .ok (.enable line)) ∧
  (∀ (line : Byte) (s : State), line.toNat ≤ 59 →
    ∃ (t : State) (b : Bank), exec (.enable line) s = .next t ∧ b.val = line.toNat / 32 ∧
      (∀ i : Line, t.enabled i = if i.val = line.toNat then true else s.enabled i) ∧
      (∀ i : Line, i.val = line.toNat → candidate t i = s.pending i) ∧
      t = { s with en := t.en, resp := .done, made := [.wr32 (.es b) (1#32 <<< (line.toNat % 32))] }) ∧
  (∀ (line : Byte) (s : State), 60 ≤ line.toNat →
    exec (.enable line) s = .next { s with resp := .rejected (.invalidLine line), made := [] })

/-- The word 0x10000000 | line decodes to the operation. For a line 0..59 it completes from every state: the line's enable
flag is false and every other line's is as before, the one access made is the 32-bit write of 1 << (line % 32) to
EC[line / 32], no value is returned, and nothing else changes. For line >= 60 it is rejected with InvalidLine(line):
no access, nothing changed. That the pending and active flags of the line are untouched is the spec's decision D29
(DESIGN CHOICE, log 26). (Rests on: 40_line_ops.md (DISABLE, decision D29).) -/
def Obligations.DisableClearsOnlyItsLine : Prop :=
  (∀ (o : Offsets) (line : Byte), decode o (.command (0x10000000#32 ||| line.setWidth 32)) = .ok (.disable line)) ∧
  (∀ (line : Byte) (s : State), line.toNat ≤ 59 →
    ∃ (t : State) (b : Bank), exec (.disable line) s = .next t ∧ b.val = line.toNat / 32 ∧
      (∀ i : Line, t.enabled i = if i.val = line.toNat then false else s.enabled i) ∧
      t = { s with en := t.en, resp := .done, made := [.wr32 (.ec b) (1#32 <<< (line.toNat % 32))] }) ∧
  (∀ (line : Byte) (s : State), 60 ≤ line.toNat →
    exec (.disable line) s = .next { s with resp := .rejected (.invalidLine line), made := [] })

/-- The word 0x20000000 | line decodes to the operation. For a line 0..59 it completes from every state: the line's
pending flag is true and every other line's is as before, the one access made is the 32-bit write of 1 << (line % 32)
to PS[line / 32], no value is returned, and nothing else changes. The line is then a candidate exactly if it is
enabled. For line >= 60 it is rejected with InvalidLine(line): no access, nothing changed. (Stated: R113.) -/
def Obligations.SetPendingSetsOnlyItsLine : Prop :=
  (∀ (o : Offsets) (line : Byte), decode o (.command (0x20000000#32 ||| line.setWidth 32)) = .ok (.setpend line)) ∧
  (∀ (line : Byte) (s : State), line.toNat ≤ 59 →
    ∃ (t : State) (b : Bank), exec (.setpend line) s = .next t ∧ b.val = line.toNat / 32 ∧
      (∀ i : Line, t.pending i = if i.val = line.toNat then true else s.pending i) ∧
      (∀ i : Line, i.val = line.toNat → candidate t i = s.enabled i) ∧
      t = { s with pend := t.pend, resp := .done, made := [.wr32 (.ps b) (1#32 <<< (line.toNat % 32))] }) ∧
  (∀ (line : Byte) (s : State), 60 ≤ line.toNat →
    exec (.setpend line) s = .next { s with resp := .rejected (.invalidLine line), made := [] })

/-- The word 0x30000000 | line decodes to the operation. For a line 0..59 it completes from every state: the line's
pending flag is false and every other line's is as before, the one access made is the 32-bit write of 1 << (line % 32)
to PC[line / 32], no value is returned, and nothing else changes. The line is then no candidate. For line >= 60 it is
rejected with InvalidLine(line): no access, nothing changed. (Stated: R114.) -/
def Obligations.ClearPendingClearsOnlyItsLine : Prop :=
  (∀ (o : Offsets) (line : Byte), decode o (.command (0x30000000#32 ||| line.setWidth 32)) = .ok (.clrpend line)) ∧
  (∀ (line : Byte) (s : State), line.toNat ≤ 59 →
    ∃ (t : State) (b : Bank), exec (.clrpend line) s = .next t ∧ b.val = line.toNat / 32 ∧
      (∀ i : Line, t.pending i = if i.val = line.toNat then false else s.pending i) ∧
      (∀ i : Line, i.val = line.toNat → candidate t i = false) ∧
      t = { s with pend := t.pend, resp := .done, made := [.wr32 (.pc b) (1#32 <<< (line.toNat % 32))] }) ∧
  (∀ (line : Byte) (s : State), 60 ≤ line.toNat →
    exec (.clrpend line) s = .next { s with resp := .rejected (.invalidLine line), made := [] })

/-- The word 0x40000000 | line decodes to ISACTIVE line. For a line 0..59 it completes from every state, returns
ACT[line], makes the one read of AF[line / 32] and changes none of the block's state. For line >= 60 it is rejected
with InvalidLine(line), with no access and no Boolean. (Stated: R115.) -/
def Obligations.IsActiveReturnsTheActiveFlag : Prop :=
  (∀ (o : Offsets) (line : Byte), decode o (.command (0x40000000#32 ||| line.setWidth 32)) = .ok (.isactive line)) ∧
  (∀ (i : Line) (line : Byte) (s : State), line.toNat = i.val →
    ∃ b : Bank, b.val = i.val / 32 ∧
      exec (.isactive line) s = .next { s with resp := .bool (s.active i), made := [.rd32 (.af b)] }) ∧
  (∀ (line : Byte) (s : State), 60 ≤ line.toNat →
    exec (.isactive line) s = .next { s with resp := .rejected (.invalidLine line), made := [] })

/-- The word 0x50000000 | (prio << 16) | line decodes to SETPRI. For a line 0..59 and every prio it completes from every
state: PRI[line] = prio, every other entry as before, one 8-bit write of that entry, no value returned, nothing else
changed. For line >= 60 it is rejected with InvalidLine(line): no access, nothing changed. (Stated: R130.) -/
def Obligations.SetPriorityStoresTheWholeByte : Prop :=
  (∀ (o : Offsets) (line prio : Byte),
    decode o (.command (0x50000000#32 ||| (prio.setWidth 32 <<< 16) ||| line.setWidth 32)) = .ok (.setpri line prio)) ∧
  (∀ (n : Line) (line prio : Byte) (s : State), line.toNat = n.val →
    ∃ t : State, exec (.setpri line prio) s = .next t ∧
      (∀ i : Line, t.prio i = if i = n then prio else s.prio i) ∧
      t = { s with pri := t.pri, resp := .done, made := [.wr8 n prio] }) ∧
  (∀ (line prio : Byte) (s : State), 60 ≤ line.toNat →
    exec (.setpri line prio) s = .next { s with resp := .rejected (.invalidLine line), made := [] })

/-- The word 0x60000000 | sel decodes to SETGRP sel. For the five selectors it completes from every state, whatever the
key is: MODE = sel[10:8], by the one write to GCFG of the word with the key in bits 31:16 and sel in bits 15:0; no
flag, no priority byte and nothing else changes. Every other sel is rejected with InvalidGroupingMode(sel): no access,
nothing changed. (Stated: R131.) -/
def Obligations.SetGroupingStoresTheMode : Prop :=
  (∀ (o : Offsets) (sel : Half), decode o (.command (0x60000000#32 ||| sel.setWidth 32)) = .ok (.setgrp sel)) ∧
  (∀ (sel : Half) (s : State), IsSelector sel →
    exec (.setgrp sel) s =
      .next { s with mode := some (sel.extractLsb' 8 3), resp := .done, made := [.wr32 .gcfg (Config.unlockKey ++ sel)] }) ∧
  (∀ (sel : Half) (s : State), ¬ IsSelector sel →
    exec (.setgrp sel) s = .next { s with resp := .rejected (.invalidGroupingMode sel), made := [] })

/-- The word 0x70000000 decodes to INIT. For some one of the five selectors, the same for every state (the OPEN parameter
INIT_MODE): INIT completes from every state with MODE = sel[10:8], by the one write to GCFG of the key with sel,
changes nothing else, and is exactly SETGRP sel. (Stated: R132.) -/
def Obligations.InitIsSetGroupingOfTheDefaultMode : Prop :=
  (∀ o : Offsets, decode o (.command 0x70000000#32) = .ok .init) ∧
  (∃ sel : Half, IsSelector sel ∧ sel = selectorOf Config.initMode ∧ ∀ s : State,
    exec .init s =
      .next { s with mode := some (sel.extractLsb' 8 3), resp := .done, made := [.wr32 .gcfg (Config.unlockKey ++ sel)] } ∧
    exec .init s = exec (.setgrp sel) s)

/-- For each operation that is not rejected, from every state: it makes exactly one access, and running that access as a
raw transaction from the same state leaves the block in the same state with the same access made. (For the writing
operations even the whole next state is the same; only ISACTIVE's answer differs.) (Rests on: 30_encoding.md section 2
(register selection), 42_bus_register_ops.md (common shape of the transactions).) -/
def Obligations.OperationIsItsOneTransaction : Prop :=
  ∀ (i : Instr) (s t : State), i.isOperation = true → exec i s = .next t → (∀ e, t.resp ≠ .rejected e) →
    ∃ (a : Access) (u : State), t.made = [a] ∧ exec a.instr s = .next u ∧ u.made = [a] ∧
      SameBlock t u ∧ ((∀ line, i ≠ .isactive line) → t = u)

/-- For every instruction and state: if the next state hands an error to the caller, then the instruction is an operation,
all five pieces of the block's state, the steps to come and the index are unchanged, no access was made, and the error
is InvalidLine with a line >= 60 or InvalidGroupingMode with a selector outside the five, never InvalidPriorityValue.
(Rests on: 60_exceptions.md section 1 (what a rejection does), 00_scope.md section 4 (outcome of a step).) -/
def Obligations.RejectedOperationHasNoEffect : Prop :=
  ∀ (i : Instr) (s t : State) (e : OpError), exec i s = .next t → t.resp = .rejected e →
    i.isOperation = true ∧ t = { s with resp := .rejected e, made := [] } ∧
      ((∃ line : Byte, e = .invalidLine line ∧ 60 ≤ line.toNat) ∨
        (∃ sel : Half, e = .invalidGroupingMode sel ∧ ¬ IsSelector sel))

/-- The header of the rule with bank bit b decodes to the write. From every state it completes: the enabled flag of each
line 32b + k with w[k] = 1 is set and every other line's is as before (a 1 at a bit that names no line does nothing, w
= 0 changes nothing), the one access is recorded, and nothing else changes. The header clause is for the suggested
default offsets, as the rules write the headers (PRESUMED, log 10). (Stated: R151.) -/
def Obligations.WriteEnableSetBank : Prop :=
  (∀ (b : Bank) (w : Word),
    decode Config.offsets (.bus (0xA100#16 ||| BitVec.ofNat 16 (4 * b.val)) w) = .ok (.wrEs b w)) ∧
  (∀ (b : Bank) (w : Word) (s : State),
    ∃ t : State, exec (.wrEs b w) s = .next t ∧
      (∀ i : Line, Names b w i → t.enabled i = true) ∧ (∀ i : Line, ¬ Names b w i → t.enabled i = s.enabled i) ∧
      t = { s with en := t.en, resp := .done, made := [.wr32 (.es b) w] })

/-- The header of the rule with bank bit b decodes to the write. From every state it completes: the enabled flag of each
line 32b + k with w[k] = 1 is cleared and every other line's is as before (a 1 at a bit that names no line does
nothing, w = 0 changes nothing), the one access is recorded, and nothing else changes. The header clause is for the
suggested default offsets, as the rules write the headers (PRESUMED, log 10). (Stated: R153.) -/
def Obligations.WriteEnableClearBank : Prop :=
  (∀ (b : Bank) (w : Word),
    decode Config.offsets (.bus (0xA180#16 ||| BitVec.ofNat 16 (4 * b.val)) w) = .ok (.wrEc b w)) ∧
  (∀ (b : Bank) (w : Word) (s : State),
    ∃ t : State, exec (.wrEc b w) s = .next t ∧
      (∀ i : Line, Names b w i → t.enabled i = false) ∧ (∀ i : Line, ¬ Names b w i → t.enabled i = s.enabled i) ∧
      t = { s with en := t.en, resp := .done, made := [.wr32 (.ec b) w] })

/-- The header of the rule with bank bit b decodes to the write. From every state it completes: the pending flag of each
line 32b + k with w[k] = 1 is set and every other line's is as before (a 1 at a bit that names no line does nothing, w
= 0 changes nothing), the one access is recorded, and nothing else changes. The header clause is for the suggested
default offsets, as the rules write the headers (PRESUMED, log 10). (Stated: R155.) -/
def Obligations.WritePendingSetBank : Prop :=
  (∀ (b : Bank) (w : Word),
    decode Config.offsets (.bus (0xA200#16 ||| BitVec.ofNat 16 (4 * b.val)) w) = .ok (.wrPs b w)) ∧
  (∀ (b : Bank) (w : Word) (s : State),
    ∃ t : State, exec (.wrPs b w) s = .next t ∧
      (∀ i : Line, Names b w i → t.pending i = true) ∧ (∀ i : Line, ¬ Names b w i → t.pending i = s.pending i) ∧
      t = { s with pend := t.pend, resp := .done, made := [.wr32 (.ps b) w] })

/-- The header of the rule with bank bit b decodes to the write. From every state it completes: the pending flag of each
line 32b + k with w[k] = 1 is cleared and every other line's is as before (a 1 at a bit that names no line does
nothing, w = 0 changes nothing), the one access is recorded, and nothing else changes. The header clause is for the
suggested default offsets, as the rules write the headers (PRESUMED, log 10). (Stated: R157.) -/
def Obligations.WritePendingClearBank : Prop :=
  (∀ (b : Bank) (w : Word),
    decode Config.offsets (.bus (0xA280#16 ||| BitVec.ofNat 16 (4 * b.val)) w) = .ok (.wrPc b w)) ∧
  (∀ (b : Bank) (w : Word) (s : State),
    ∃ t : State, exec (.wrPc b w) s = .next t ∧
      (∀ i : Line, Names b w i → t.pending i = false) ∧ (∀ i : Line, ¬ Names b w i → t.pending i = s.pending i) ∧
      t = { s with pend := t.pend, resp := .done, made := [.wr32 (.pc b) w] })

/-- The header with bank bit b decodes to the read. From every state it completes and returns the 32-bit view of the
enabled flags: bit k is the flag of line 32b + k, and 0 where that is above 59; nothing of the block's state changes.
That the bits above line 59 read 0 is the spec's decision D18 (log 23). The header clause is for the suggested default
offsets, as the rules write the headers (PRESUMED, log 10). (Stated: R152.) -/
def Obligations.ReadEnableSetBank : Prop :=
  (∀ (b : Bank) (d : Word),
    decode Config.offsets (.bus (0x2100#16 ||| BitVec.ofNat 16 (4 * b.val)) d) = .ok (.rdEs b)) ∧
  (∀ (b : Bank) (s : State),
    ∃ v : Word, ShowsBank v b s.enabled ∧
      exec (.rdEs b) s = .next { s with resp := .data32 v, made := [.rd32 (.es b)] })

/-- The header with bank bit b decodes to the read. From every state it completes and returns the 32-bit view of the
enabled flags: bit k is the flag of line 32b + k, and 0 where that is above 59; nothing of the block's state changes.
The value read is the spec's decision D16 (log 21), and that the bits above line 59 read 0 its decision D18 (log 23).
The header clause is for the suggested default offsets, as the rules write the headers (PRESUMED, log 10). (Rests on:
42_bus_register_ops.md section 1 (decision D16).) -/
def Obligations.ReadEnableClearBank : Prop :=
  (∀ (b : Bank) (d : Word),
    decode Config.offsets (.bus (0x2180#16 ||| BitVec.ofNat 16 (4 * b.val)) d) = .ok (.rdEc b)) ∧
  (∀ (b : Bank) (s : State),
    ∃ v : Word, ShowsBank v b s.enabled ∧
      exec (.rdEc b) s = .next { s with resp := .data32 v, made := [.rd32 (.ec b)] })

/-- The header with bank bit b decodes to the read. From every state it completes and returns the 32-bit view of the
pending flags: bit k is the flag of line 32b + k, and 0 where that is above 59; nothing of the block's state changes.
The value read is the spec's decision D16 (log 21), and that the bits above line 59 read 0 its decision D18 (log 23).
The header clause is for the suggested default offsets, as the rules write the headers (PRESUMED, log 10). (Rests on:
42_bus_register_ops.md section 2 (decision D16).) -/
def Obligations.ReadPendingSetBank : Prop :=
  (∀ (b : Bank) (d : Word),
    decode Config.offsets (.bus (0x2200#16 ||| BitVec.ofNat 16 (4 * b.val)) d) = .ok (.rdPs b)) ∧
  (∀ (b : Bank) (s : State),
    ∃ v : Word, ShowsBank v b s.pending ∧
      exec (.rdPs b) s = .next { s with resp := .data32 v, made := [.rd32 (.ps b)] })

/-- The header with bank bit b decodes to the read. From every state it completes and returns the 32-bit view of the
pending flags: bit k is the flag of line 32b + k, and 0 where that is above 59; nothing of the block's state changes.
The value read is the spec's decision D16 (log 21), and that the bits above line 59 read 0 its decision D18 (log 23).
The header clause is for the suggested default offsets, as the rules write the headers (PRESUMED, log 10). (Rests on:
42_bus_register_ops.md section 2 (decision D16).) -/
def Obligations.ReadPendingClearBank : Prop :=
  (∀ (b : Bank) (d : Word),
    decode Config.offsets (.bus (0x2280#16 ||| BitVec.ofNat 16 (4 * b.val)) d) = .ok (.rdPc b)) ∧
  (∀ (b : Bank) (s : State),
    ∃ v : Word, ShowsBank v b s.pending ∧
      exec (.rdPc b) s = .next { s with resp := .data32 v, made := [.rd32 (.pc b)] })

/-- The header with bank bit b decodes to the read. From every state it completes and returns the 32-bit view of the
active flags: bit k is the flag of line 32b + k, and 0 where that is above 59; nothing of the block's state changes.
That the bits above line 59 read 0 is the spec's decision D18 (log 23). The header clause is for the suggested default
offsets, as the rules write the headers (PRESUMED, log 10). (Stated: R159.) -/
def Obligations.ReadActiveBank : Prop :=
  (∀ (b : Bank) (d : Word),
    decode Config.offsets (.bus (0x2300#16 ||| BitVec.ofNat 16 (4 * b.val)) d) = .ok (.rdAf b)) ∧
  (∀ (b : Bank) (s : State),
    ∃ v : Word, ShowsBank v b s.active ∧
      exec (.rdAf b) s = .next { s with resp := .data32 v, made := [.rd32 (.af b)] })

/-- The header 0xA300 with bank bit b decodes to the write. From every state and for every w it completes, and none of the
block's state changes; the access is recorded. That it completes is the spec's decision D17 (log 22). The header
clause is for the suggested default offsets, as the rules write the headers (PRESUMED, log 10). (Rests on:
42_bus_register_ops.md section 3 (decision D17).) -/
def Obligations.WriteActiveBankIsIgnored : Prop :=
  (∀ (b : Bank) (w : Word),
    decode Config.offsets (.bus (0xA300#16 ||| BitVec.ofNat 16 (4 * b.val)) w) = .ok (.wrAf b w)) ∧
  (∀ (b : Bank) (w : Word) (s : State),
    exec (.wrAf b w) s = .next { s with resp := .done, made := [.wr32 (.af b) w] })

/-- For n in 0..59 the header 0x8400 | n decodes to the write of the data's low 8 bits. From every state it completes:
PRI[n] = w, every other entry as before, nothing else changed. The header clause is for the suggested default offsets,
as the rules write the headers (PRESUMED, log 10). (Stated: R161.) -/
def Obligations.WritePriorityEntry : Prop :=
  (∀ (n : BitVec 6) (d : Word), n.toNat ≤ 59 →
    decode Config.offsets (.bus (0x8400#16 ||| n.setWidth 16) d) = .ok (.wrPri n (d.setWidth 8))) ∧
  (∀ (k : Line) (n : BitVec 6) (w : Byte) (s : State), n.toNat = k.val →
    ∃ t : State, exec (.wrPri n w) s = .next t ∧
      (∀ i : Line, t.prio i = if i = k then w else s.prio i) ∧
      t = { s with pri := t.pri, resp := .done, made := [.wr8 k w] })

/-- For n in 0..59 the header 0x0400 | n decodes to the read. From every state it completes, returns PRI[n], all 8 bits,
and changes nothing of the block's state; after SETPRI n, v it returns v. The header clause is for the suggested
default offsets, as the rules write the headers (PRESUMED, log 10). (Stated: R162.) -/
def Obligations.ReadPriorityEntry : Prop :=
  (∀ (n : BitVec 6) (d : Word), n.toNat ≤ 59 →
    decode Config.offsets (.bus (0x0400#16 ||| n.setWidth 16) d) = .ok (.rdPri n)) ∧
  (∀ (k : Line) (n : BitVec 6) (s : State), n.toNat = k.val →
    exec (.rdPri n) s = .next { s with resp := .data8 (s.prio k), made := [.rd8 k] }) ∧
  (∀ (k : Line) (n : BitVec 6) (line v : Byte) (s t : State), n.toNat = k.val → line.toNat = k.val →
    exec (.setpri line v) s = .next t →
      exec (.rdPri n) t = .next { t with resp := .data8 v, made := [.rd8 k] })

/-- For n in 60..63: both headers decode to nothing, under the name unmapped, and the (ill-formed) instructions are
refused under the same name in every state. The header clause is for the suggested default offsets (PRESUMED, log 10),
the name is the model's (log 24), and that the meanings refuse as the decoder does is the model's inference (DEDUCED,
log 29). (Rests on: 42_bus_register_ops.md section 6 (unmapped offset, decision D26).) -/
def Obligations.EntryNumbersAbove59AreRefused : Prop :=
  ∀ n : BitVec 6, 60 ≤ n.toNat →
    (∀ d, decode Config.offsets (.bus (0x8400#16 ||| n.setWidth 16) d) = .error .unmapped ∧
      decode Config.offsets (.bus (0x0400#16 ||| n.setWidth 16) d) = .error .unmapped) ∧
    (∀ (w : Byte) (s : State), exec (.wrPri n w) s = .refused (.invalid .unmapped) ∧
      exec (.rdPri n) s = .refused (.invalid .unmapped))

/-- The header 0xAD0C decodes to the write. From every state: if bits 31:16 differ from the key, the write completes and
none of the block's state changes, whatever the other bits hold; if they equal the key and bits 15:11 and 7:0 are
zero, it completes with MODE = bits 10:8, whatever they are, and nothing else changed; if they equal the key and
another bit is set, it is refused. For every value of the key; the key's place and the refusal are the spec's
decisions D5 and D8 (logs 11, 19). The header clause is for the suggested default offsets, as the rules write the
headers (PRESUMED, log 10). (Rests on: 42_bus_register_ops.md section 5 (unlock-key state machine, decision D8),
30_encoding.md section 3 (decision D5).) -/
def Obligations.GroupingWriteObeysTheKey : Prop :=
  (∀ w : Word, decode Config.offsets (.bus 0xAD0C#16 w) = .ok (.wrGcfg w)) ∧
  (∀ (w : Word) (s : State), w.extractLsb' 16 16 ≠ Config.unlockKey →
    exec (.wrGcfg w) s = .next { s with resp := .done, made := [.wr32 .gcfg w] }) ∧
  (∀ (w : Word) (s : State), w.extractLsb' 16 16 = Config.unlockKey → IsClean w →
    exec (.wrGcfg w) s =
      .next { s with mode := some (w.extractLsb' 8 3), resp := .done, made := [.wr32 .gcfg w] }) ∧
  (∀ (w : Word) (s : State), w.extractLsb' 16 16 = Config.unlockKey → ¬ IsClean w →
    exec (.wrGcfg w) s = .refused .keyedWriteNotClean)

/-- The header 0x2D0C decodes to the read. From every state with MODE = m it completes, changes nothing of the block's
state and returns the word with KEY_READ in bits 31:16, m in bits 10:8 and zero in bits 15:11 and 7:0; while MODE has
no value it is refused. The layout is the spec's decision D7 (log 20). The header clause is for the suggested default
offsets, as the rules write the headers (PRESUMED, log 10). (Rests on: 42_bus_register_ops.md section 5 (readable
mirror, decision D7).) -/
def Obligations.GroupingReadShowsTheMode : Prop :=
  (∀ d : Word, decode Config.offsets (.bus 0x2D0C#16 d) = .ok .rdGcfg) ∧
  (∀ (m : BitVec 3) (s : State), s.mode = some m →
    ∃ v : Word, v.extractLsb' 16 16 = Config.keyRead ∧ v.extractLsb' 11 5 = 0#5 ∧ v.extractLsb' 8 3 = m ∧
      v.extractLsb' 0 8 = 0#8 ∧ exec .rdGcfg s = .next { s with resp := .data32 v, made := [.rd32 .gcfg] }) ∧
  (∀ s : State, s.mode = none → exec .rdGcfg s = .refused .modeHasNoValue)

/-- From every state: after any completed write of GCFG, carrying the key or not, a second write of GCFG whose upper half
is not the key completes and changes nothing of the block, so MODE stays as the first write left it: bits 10:8 of the
first word if that one carried the key, and as before it if not. The key is compared afresh on every write. (Rests on:
10_state.md section 5 (hidden state), 70_reset_and_hazards.md section 2 (one write for key and mode),
42_bus_register_ops.md section 5.) -/
def Obligations.NoWriteLeavesTheRegisterUnlocked : Prop :=
  ∀ (first second : Word) (s t : State), second.extractLsb' 16 16 ≠ Config.unlockKey →
    exec (.wrGcfg first) s = .next t →
      exec (.wrGcfg second) t = .next { t with resp := .done, made := [.wr32 .gcfg second] } ∧
        t.mode = if first.extractLsb' 16 16 = Config.unlockKey then some (first.extractLsb' 8 3) else s.mode

/-- For every line n: n = 32 * bank + bitpos with bitpos at most 31, and the mask has a 1 exactly at bitpos; lines 59, 31,
32 and 37 give the banks and masks the spec lists. (Rests on: 30_encoding.md section 2 (register bank selector).) -/
def Obligations.BankSelectorWorkedValues : Prop :=
  (∀ n : Line, n.val = 32 * bankOf n.val + bitposOf n.val ∧ bitposOf n.val ≤ 31 ∧ (lineBank n).val = n.val / 32 ∧
    ∀ k, (maskOf n.val).getLsbD k = decide (k = n.val % 32)) ∧
  (lineBank 59 = 1 ∧ maskOf 59 = 0x08000000#32) ∧ (lineBank 31 = 0 ∧ maskOf 31 = 0x80000000#32) ∧
  (lineBank 32 = 1 ∧ maskOf 32 = 0x00000001#32) ∧ (lineBank 37 = 1 ∧ maskOf 37 = 0x00000020#32)

/-- For every state and word w: writing w to bank 1 of ES, EC, PS or PC leaves the same block state as writing w with bits
31:28 made 0. (Rests on: 10_state.md section 5 (lines 60..63, decision D18).) -/
def Obligations.BankOneTopBitsNameNoLine : Prop :=
  ∀ (w : Word) (s : State),
    (∃ t u, exec (.wrEs 1 w) s = .next t ∧ exec (.wrEs 1 (w &&& 0x0FFFFFFF#32)) s = .next u ∧ SameBlock t u) ∧
    (∃ t u, exec (.wrEc 1 w) s = .next t ∧ exec (.wrEc 1 (w &&& 0x0FFFFFFF#32)) s = .next u ∧ SameBlock t u) ∧
    (∃ t u, exec (.wrPs 1 w) s = .next t ∧ exec (.wrPs 1 (w &&& 0x0FFFFFFF#32)) s = .next u ∧ SameBlock t u) ∧
    (∃ t u, exec (.wrPc 1 w) s = .next t ∧ exec (.wrPc 1 (w &&& 0x0FFFFFFF#32)) s = .next u ∧ SameBlock t u)

/-- For each of WR_ES, WR_EC, WR_PS, WR_PC, every bank, word and state: the second of two equal writes leaves the state as
the first left it; and a write of 0x00000000 leaves the block's state as it was. (Rests on: 20_memory.md section 3
(write semantics of the set and clear registers).) -/
def Obligations.BankWritesAreIdempotent : Prop :=
  ∀ (b : Bank) (w : Word) (s : State), ∀ mk ∈ [Instr.wrEs, Instr.wrEc, Instr.wrPs, Instr.wrPc],
    (∃ t, exec (mk b w) s = .next t ∧ exec (mk b w) t = .next t) ∧
    (∃ t, exec (mk b 0#32) s = .next t ∧ SameBlock s t)

/-- For every instruction and two states that agree on EN, PEND, ACT, PRI and MODE: if it completes from the one it
completes from the other, with the same five pieces, the same answer and the same accesses. (Rests on: 10_state.md
sections 1 and 5 (the whole state; hidden state).) -/
def Obligations.NoHiddenStateInInstructions : Prop :=
  ∀ (i : Instr) (s s' t : State), SameBlock s s' → exec i s = .next t →
    ∃ t', exec i s' = .next t' ∧ SameBlock t t' ∧ t.resp = t'.resp ∧ t.made = t'.made

/-- For every state and line i: if step answers a next state in which EN[i] differs, then the step ran ENABLE or DISABLE
of that line, or WR_ES or WR_EC on its bank with a 1 at its bit; and it is set by the set forms, cleared by the clear
forms. (Rests on: 10_state.md section 2 (per-line flags), 42_bus_register_ops.md section 1.) -/
def Obligations.OnlyEnableAccessesChangeEnable : Prop :=
  ∀ (s t : State) (i : Line), step s = .next t → t.enabled i ≠ s.enabled i →
    ∃ (line : Byte) (w : Word), line.toNat = i.val ∧ Names (lineBank i) w i ∧
      ((t.enabled i = true ∧ (nextInstr s = some (.enable line) ∨ nextInstr s = some (.wrEs (lineBank i) w))) ∨
        (t.enabled i = false ∧ (nextInstr s = some (.disable line) ∨ nextInstr s = some (.wrEc (lineBank i) w))))

/-- For every state and line i: if step answers a next state in which PEND[i] differs, then it was set by SETPEND of that
line, WR_PS with a 1 at its bit or IRQ of that line, or cleared by CLRPEND of that line, WR_PC with a 1 at its bit or
a TAKE. TAKE's effect is the spec's decision D15 (log 17). (Rests on: 10_state.md section 2 (per-line flags),
43_priority_encoder.md section 3 (events).) -/
def Obligations.OnlyPendingAccessesAndEventsChangePending : Prop :=
  ∀ (s t : State) (i : Line), step s = .next t → t.pending i ≠ s.pending i →
    ∃ (line : Byte) (w : Word), line.toNat = i.val ∧ Names (lineBank i) w i ∧
      ((t.pending i = true ∧ (nextInstr s = some (.setpend line) ∨ nextInstr s = some (.wrPs (lineBank i) w) ∨
          nextEvent s = some (.irq i))) ∨
        (t.pending i = false ∧ (nextInstr s = some (.clrpend line) ∨ nextInstr s = some (.wrPc (lineBank i) w) ∨
          nextEvent s = some .take)))

/-- For every state and line i: if step answers a next state in which ACT[i] differs, then ACT[i] is now 1 and the step
was a TAKE, or it is now 0 and the step was RET i. The events' effects are the spec's decision D15 (log 17). (Rests
on: 10_state.md section 2 (active flags, decision D15).) -/
def Obligations.OnlyTakeAndRetChangeActive : Prop :=
  ∀ (s t : State) (i : Line), step s = .next t → t.active i ≠ s.active i →
    (t.active i = true ∧ nextEvent s = some .take) ∨ (t.active i = false ∧ nextEvent s = some (.ret i))

/-- For every state and line i: if step answers a next state in which PRI[i] differs, then the step ran SETPRI of that
line or WR_PRI of that entry with the byte that PRI[i] now holds. (Rests on: 10_state.md section 3 (priority bytes).) -/
def Obligations.OnlyPriorityWritesChangePriorities : Prop :=
  ∀ (s t : State) (i : Line), step s = .next t → t.prio i ≠ s.prio i →
    (∃ line : Byte, line.toNat = i.val ∧ nextInstr s = some (.setpri line (t.prio i))) ∨
      (∃ n : BitVec 6, n.toNat = i.val ∧ nextInstr s = some (.wrPri n (t.prio i)))

/-- For every state: if step answers a next state in which MODE differs, then the step ran WR_GCFG with the key in bits
31:16, bits 15:11 and 7:0 zero and bits 10:8 the new mode, or SETGRP of one of the five selectors with sel[10:8] the
new mode, or INIT with the new mode that of INIT_MODE. (Rests on: 42_bus_register_ops.md section 5 (the unlock-key
state machine as a table), 10_state.md section 4 (grouping mode).) -/
def Obligations.OnlyKeyedWritesChangeMode : Prop :=
  ∀ s t : State, step s = .next t → t.mode ≠ s.mode →
    (∃ w : Word, nextInstr s = some (.wrGcfg w) ∧ w.extractLsb' 16 16 = Config.unlockKey ∧ IsClean w ∧
      t.mode = some (w.extractLsb' 8 3)) ∨
    (∃ sel : Half, nextInstr s = some (.setgrp sel) ∧ IsSelector sel ∧ t.mode = some (sel.extractLsb' 8 3)) ∨
    (nextInstr s = some .init ∧ t.mode = some ((selectorOf Config.initMode).extractLsb' 8 3))

/-- For every state with a value in MODE: if step answers a next state, MODE has a value there. (Rests on: 10_state.md
section 7 (invariants, (d)).) -/
def Obligations.ModeNeverReturnsToNoValue : Prop :=
  ∀ s t : State, s.mode.isSome = true → step s = .next t → t.mode.isSome = true

/-- For every state with MODE in 3..7 and no raw write of GCFG among its steps to come: if step answers a next state, that
state has MODE in 3..7 and no raw write of GCFG to come. (Rests on: 42_bus_register_ops.md section 5 (a run made only
of operations keeps MODE in 3..7).) -/
def Obligations.ModeStaysDefinedWithoutRawGroupingWrites : Prop :=
  ∀ s t : State, ModeGuarded s → step s = .next t → ModeGuarded t

/-- For every state with no active line and no TAKE among its steps to come: if step answers a next state, it has no
active line and no TAKE to come. So ISACTIVE stays false whatever is set pending. (Rests on: 10_state.md section 7
(invariants, (e)).) -/
def Obligations.NothingIsActiveWithoutTake : Prop :=
  ∀ s t : State, NeverTaken s → step s = .next t → NeverTaken t

/-- If step answers a next state t from an accounted state, t is accounted for: an error goes with no access and a bad
operand and is never InvalidPriorityValue; a Boolean goes with one read of AF, read data with one read; at most one
access was made; and every access made has taken effect in t (the named flags are set or cleared, the byte stored, and
a key-carrying write of GCFG was clean and has set MODE). The answer and the accesses are the model's own fields (log
4). (Rests on: 60_exceptions.md section 1 (what a rejection does; propagation), 30_encoding.md section 2 (register
selection), 20_memory.md section 4 (a).) -/
def Obligations.EveryStepIsAccountedFor : Prop :=
  ∀ s t : State, Accounted s → step s = .next t → Accounted t

/-- For every choice of the offsets the state after reset satisfies the invariants of EveryStepIsAccountedFor and
NothingIsActiveWithoutTake; the reset state of the machine is the one with the suggested default offsets (PRESUMED,
log 10), which keep the registers disjoint and within 12 bits. That no flag is set is the spec's decision D10 (log 5);
that no program is loaded is the model's choice (log 1). (Rests on: 10_state.md section 6 (decision D10), 00_scope.md
section 4, 20_memory.md section 1 (decision D4).) -/
def Obligations.ResetSatisfiesTheInvariants : Prop :=
  (∀ o : Offsets, Accounted (State.resetWith o) ∧ NeverTaken (State.resetWith o) ∧ (State.resetWith o).offsets = o) ∧
    State.reset = State.resetWith Config.offsets ∧ State.reset.offsets.wellFormed = true

/-- In the reset state, whatever the offsets, EN, PEND and ACT are 0 and PRI is 0x00 for every line, MODE is RESET_MODE,
and each line's ISACTIVE completes and returns false. The zeros are the spec's decision D10 (log 5), RESET_MODE is its
OPEN parameter (log 6). (Rests on: 10_state.md section 6 (reset values, decision D10).) -/
def Obligations.ResetLeavesFlagsAndPrioritiesZero : Prop :=
  ∀ o : Offsets,
    (∀ i : Line, (State.resetWith o).enabled i = false ∧ (State.resetWith o).pending i = false ∧
      (State.resetWith o).active i = false ∧ (State.resetWith o).prio i = 0#8) ∧
    (State.resetWith o).mode = Config.resetMode ∧
    (∀ line : Byte, line.toNat ≤ 59 → ∃ t, exec (.isactive line) (State.resetWith o) = .next t ∧ t.resp = .bool false)

/-- For every mode and priority byte: the group and sub bits number 4 together, with g = 7 - m and s = m - 3; grp is the
byte shifted right by m + 1 and below 2^g; sub is the byte's upper four bits modulo 2^s; and key4 is grp and sub
joined. The places of the fields are the spec's decision D12 (log 14). (Rests on: 43_priority_encoder.md section 1
(decision D12), 30_encoding.md section 3 (mode selectors).) -/
def Obligations.SplitOfAPriorityByte : Prop :=
  ∀ (m : GroupMode) (p : Byte),
    groupBits m + subBits m = 4 ∧ (modeBits m).toNat = 7 - groupBits m ∧
    (grp m p).toNat = p.toNat / 2 ^ (8 - groupBits m) ∧ (grp m p).toNat < 2 ^ groupBits m ∧
    (sub m p).toNat = p.toNat / 16 % 2 ^ subBits m ∧
    (key4 p).toNat = (grp m p).toNat * 2 ^ subBits m + (sub m p).toNat

/-- For every mode, every group below 2^g and every sub-priority below 2^s: grp and sub of ((G << s) | S) << 4 are G and
S, and the low four bits of that byte are 0. (Rests on: 41_priority_ops.md (composing a priority byte).) -/
def Obligations.ComposedPriorityByteSplitsBack : Prop :=
  ∀ (m : GroupMode) (g s : Byte), g.toNat < 2 ^ groupBits m → s.toNat < 2 ^ subBits m →
    grp m (prienc m g s) = g ∧ sub m (prienc m g s) = s ∧ (prienc m g s).extractLsb' 0 4 = 0#4

/-- For every mode and state: moreUrgent is exactly the written-out lexicographic order, lower values first; no line is
more urgent than itself; it is transitive; and of two different lines exactly one is the more urgent. Which end is
urgent and the tie-break are the spec's decision D13 (log 15). (Rests on: 43_priority_encoder.md section 1 (urgency,
decision D13).) -/
def Obligations.UrgencyIsAStrictTotalOrder : Prop :=
  ∀ (m : GroupMode) (s : State) (a b c : Line),
    (moreUrgent m s a b = true ↔ LexBefore m s a b) ∧ moreUrgent m s a a = false ∧
    (moreUrgent m s a b = true → moreUrgent m s b c = true → moreUrgent m s a c = true) ∧
    (a ≠ b → (moreUrgent m s a b = true ↔ ¬ moreUrgent m s b a = true))

/-- For every mode and state: winner is none if and only if no line is both enabled and pending; and winner is w if and
only if w is enabled and pending and comes before every other enabled and pending line in the order on group,
sub-priority and line number. The rule is the spec's decision D14 (log 16). (Rests on: 43_priority_encoder.md section
2 (candidates, winner; decision D14).) -/
def Obligations.WinnerIsTheMostUrgentCandidate : Prop :=
  ∀ (m : GroupMode) (s : State),
    (winner m s = none ↔ ∀ i : Line, ¬ (s.enabled i = true ∧ s.pending i = true)) ∧
    (∀ w : Line, winner m s = some w ↔
      (s.enabled w = true ∧ s.pending w = true ∧
        ∀ j : Line, s.enabled j = true → s.pending j = true → j ≠ w → LexBefore m s w j))

/-- For every two modes and every state the winners are equal; and the winner is w if and only if w is a candidate and
every other candidate has a greater key4, or an equal one and a higher line number. (Rests on: 43_priority_encoder.md
section 2 (the winner does not depend on the mode).) -/
def Obligations.WinnerDoesNotDependOnTheMode : Prop :=
  ∀ (m m' : GroupMode) (s : State),
    winner m s = winner m' s ∧
    (∀ w : Line, winner m s = some w ↔
      (candidate s w = true ∧ ∀ j : Line, candidate s j = true → j ≠ w →
        (key4 (s.prio w)).toNat < (key4 (s.prio j)).toNat ∨
          (key4 (s.prio w) = key4 (s.prio j) ∧ w.val < j.val)))

/-- For two states that agree on EN, PEND, ACT and MODE and on bits 7:4 of every priority byte: the outputs are equal, and
a TAKE delivers, does not happen, or is refused in both alike, with the same flags after it. (Rests on:
43_priority_encoder.md sections 1 and 2 (the low four bits; consequences (d)).) -/
def Obligations.LowPriorityBitsDoNotMatter : Prop :=
  ∀ s s' : State, s.en = s'.en → s.pend = s'.pend → s.act = s'.act → s.mode = s'.mode →
    (∀ i : Line, (s.prio i).extractLsb' 4 4 = (s'.prio i).extractLsb' 4 4) →
      outputs s = outputs s' ∧
      ∀ t, execTake s = .next t → ∃ t', execTake s' = .next t' ∧ t.pend = t'.pend ∧ t.act = t'.act ∧ t.resp = t'.resp

/-- For every state: the outputs have a value if and only if MODE is in 3..7; under the mode m in force, irq_line is the
winner, irq_pending says there is one, and irq_valid says that there is one and its group priority is strictly less
than that of every active line. By the spec's decisions D9 and D14 (logs 16, 18). (Rests on: 43_priority_encoder.md
section 2 (preemption, outputs, undefined mode; decisions D9, D14).) -/
def Obligations.OutputsFollowTheState : Prop :=
  ∀ s : State,
    (outputs s = none ↔ ¬ ModeDefined s) ∧
    (∀ (m : GroupMode) (out : Outputs), s.mode = some (modeBits m) → outputs s = some out →
      out.irqLine = winner m s ∧ out.irqPending = (winner m s).isSome ∧
      (out.irqValid = true ↔ ∃ w : Line, winner m s = some w ∧
        ∀ j : Line, s.active j = true → (grp m (s.prio w)).toNat < (grp m (s.prio j)).toNat))

/-- For every state and mode: if the winner is itself active, preempt_ok is false; and in mode 7 (no group bits), if any
line is active, preempt_ok is false. (Rests on: 43_priority_encoder.md section 2 (consequences (a) and (b)).) -/
def Obligations.NothingPreemptsItselfOrWithoutGroups : Prop :=
  (∀ (m : GroupMode) (s : State) (w : Line), winner m s = some w → s.active w = true → preemptOk m s = false) ∧
  (∀ (s : State) (j : Line), s.active j = true → preemptOk .g0s4 s = false)

/-- From every state: while MODE is not in 3..7, TAKE is refused. Under a mode m in force: if the winner is w and its
group is strictly below every active line's, TAKE completes with PEND[w] = 0 and ACT[w] = 1, the other lines' flags
and everything else as before; otherwise nothing of the block changes and the event is reported as not enabled (log
3). By the spec's decisions D9 and D15 (logs 17, 18). (Rests on: 43_priority_encoder.md section 3 (decision D15) and
section 2 (undefined mode, decision D9).) -/
def Obligations.TakeDeliversTheWinner : Prop :=
  (∀ s : State, ¬ ModeDefined s → execTake s = .refused .modeHasNoSplit) ∧
  (∀ (m : GroupMode) (s : State) (w : Line), s.mode = some (modeBits m) → winner m s = some w →
    (∀ j : Line, s.active j = true → (grp m (s.prio w)).toNat < (grp m (s.prio j)).toNat) →
      ∃ t : State, execTake s = .next t ∧ (∀ i : Line, t.pending i = if i = w then false else s.pending i) ∧
        (∀ i : Line, t.active i = if i = w then true else s.active i) ∧
        t = { s with pend := t.pend, act := t.act, resp := .done, made := [] }) ∧
  (∀ (m : GroupMode) (s : State), s.mode = some (modeBits m) → preemptOk m s = false →
    execTake s = .next { s with resp := .notEnabled, made := [] })

/-- From every state: IRQ i completes with PEND[i] = 1, other flags and all else as before, and the same block state as
SETPEND i; if ACT[i] = 1, RET i completes with ACT[i] = 0 and all else as before; if ACT[i] = 0, nothing of the block
changes and the event is reported as not enabled (log 3). By the spec's decisions D15 and D30 (log 17). (Rests on:
43_priority_encoder.md section 3 (decisions D15, D30).) -/
def Obligations.SignalAndReturnChangeOneFlag : Prop :=
  (∀ (i : Line) (s : State), ∃ t : State, execIrq i s = .next t ∧
    (∀ j : Line, t.pending j = if j = i then true else s.pending j) ∧
    t = { s with pend := t.pend, resp := .done, made := [] } ∧
    ∃ u, exec (.setpend (BitVec.ofNat 8 i.val)) s = .next u ∧ SameBlock t u) ∧
  (∀ (i : Line) (s : State), s.active i = true → ∃ t : State, execRet i s = .next t ∧
    (∀ j : Line, t.active j = if j = i then false else s.active j) ∧
    t = { s with act := t.act, resp := .done, made := [] }) ∧
  (∀ (i : Line) (s : State), s.active i = false →
    execRet i s = .next { s with resp := .notEnabled, made := [] })

/-- For all admissible offsets, every header and data: if bit 14 is set, or the size code is 01 or 11, or the size is 32
bits and no 32-bit register stands at exactly that offset, or the size is 8 bits and the offset is outside the 60
priority entries, then it decodes to no instruction; and otherwise it decodes to one. (Rests on:
42_bus_register_ops.md section 6 (refused transactions, decisions D19, D26), 30_encoding.md section 4 (decision D3).) -/
def Obligations.MissizedAccessesAreRefused : Prop :=
  ∀ (o : Offsets) (h : BitVec 16) (d : Word), o.wellFormed = true →
    ((∃ i, decode o (.bus h d) = .ok i) ↔
      (h.getLsbD 14 = false ∧
        ((h.extractLsb' 12 2 = 0b10#2 ∧ ∃ r : Reg32, o.reg32 r = (h.extractLsb' 0 12).toNat) ∨
          (h.extractLsb' 12 2 = 0b00#2 ∧ ∃ n : Line, o.entry n.val = (h.extractLsb' 0 12).toNat))))

/-- For every state: if step answers a next state, its offsets are those of the state before; so if they kept the
registers disjoint and within 12 bits, they still do. That the offsets stand in the state is the model's choice (log
10). (Rests on: 20_memory.md section 1 (offset parameters, decision D4).) -/
def Obligations.OffsetsAreFixedAndStayDisjoint : Prop :=
  ∀ s t : State, step s = .next t →
    t.offsets = s.offsets ∧ (s.offsets.wellFormed = true → t.offsets.wellFormed = true)
end

