-- ==== Sys2Proof/Laws/Decode.lean ====
section
/-! SUPPORT. The header's fields through packing and unpacking, and the register map of admissible offsets. -/

namespace Sys2Proof

/-- Bit `i` of a packed header, field by field (R90). -/
theorem getLsbD_packHeader (t : Header) (i : Nat) : (packHeader t).getLsbD i =
    if i < 12 then t.off.getLsbD i
    else if i < 14 then t.size.code.getLsbD (i - 12)
    else if i < 15 then false
    else (BitVec.ofBool t.wr).getLsbD (i - 15) := by
  have e1 : (packHeader t).getLsbD i = if i < 12 then t.off.getLsbD i
      else (BitVec.ofBool t.wr ++ 0#1 ++ t.size.code).getLsbD (i - 12) := BitVec.getLsbD_append
  have e2 : (BitVec.ofBool t.wr ++ 0#1 ++ t.size.code).getLsbD (i - 12) = if i - 12 < 2 then t.size.code.getLsbD (i - 12)
      else (BitVec.ofBool t.wr ++ 0#1).getLsbD (i - 12 - 2) := BitVec.getLsbD_append
  have e3 : (BitVec.ofBool t.wr ++ 0#1).getLsbD (i - 12 - 2) = if i - 12 - 2 < 1 then (0#1).getLsbD (i - 12 - 2)
      else (BitVec.ofBool t.wr).getLsbD (i - 12 - 2 - 1) := BitVec.getLsbD_append
  rw [e1]
  split
  · rfl
  · rw [e2]
    have h12 : ¬ i < 12 := by assumption
    by_cases h14 : i < 14
    · rw [if_pos (by omega), if_pos h14]
    · rw [if_neg (by omega), if_neg h14, e3]
      by_cases h15 : i < 15
      · rw [if_pos (by omega), if_pos h15]; simp
      · rw [if_neg (by omega), if_neg h15]
        congr 1

theorem ofCode_code (size : Size) : Size.ofCode size.code = some size := by
  cases size <;> rfl

theorem code_of_ofCode : ∀ {c : BitVec 2} {size : Size}, Size.ofCode c = some size → size.code = c := by
  decide

/-- Unpacking a packed header gives its fields back (R90). -/
theorem unpackHeader_packHeader (t : Header) : unpackHeader (packHeader t) = .ok t := by
  have h14 : (packHeader t).getLsbD 14 = false := by rw [getLsbD_packHeader]; rfl
  have hwr : (packHeader t).getLsbD 15 = t.wr := by
    rw [getLsbD_packHeader]; simp
  have hsize : (packHeader t).extractLsb' 12 2 = t.size.code := by
    apply BitVec.eq_of_getLsbD_eq
    intro i hi
    rw [BitVec.getLsbD_extractLsb', getLsbD_packHeader, if_neg (by omega), if_pos (by omega)]
    simp [hi]
  have hoff : (packHeader t).extractLsb' 0 12 = t.off := by
    apply BitVec.eq_of_getLsbD_eq
    intro i hi
    rw [BitVec.getLsbD_extractLsb', getLsbD_packHeader, if_pos (by omega)]
    simp [hi]
  simp only [unpackHeader, h14, hsize, hwr, hoff, ofCode_code]
  rfl

/-- A header that unpacks is the packing of its fields (R90, R91). -/
theorem packHeader_of_unpackHeader {h : BitVec 16} {t : Header} (hu : unpackHeader h = .ok t) : packHeader t = h := by
  unfold unpackHeader at hu
  split at hu
  · cases hu
  · rename_i h14
    split at hu
    · cases hu
    · rename_i size hs
      cases hu
      have hc := code_of_ofCode hs
      apply BitVec.eq_of_getLsbD_eq
      intro i hi
      rw [getLsbD_packHeader]
      by_cases h12 : i < 12
      · simp [h12]
      · by_cases hi14 : i < 14
        · rw [if_neg h12, if_pos hi14, hc, BitVec.getLsbD_extractLsb']
          have : 12 + (i - 12) = i := by omega
          have : i - 12 < 2 := by omega
          simp [*]
        · by_cases hi15 : i < 15
          · have : i = 14 := by omega
            subst this
            simpa using h14
          · have : i = 15 := by omega
            subst this
            simp

/-! ### The register map -/

theorem mem_allReg32 (r : Reg32) : r ∈ allReg32 := by
  cases r with
  | gcfg => decide
  | es b => revert b; decide
  | ec b => revert b; decide
  | ps b => revert b; decide
  | pc b => revert b; decide
  | af b => revert b; decide

theorem reg32At_eq_some {o : Offsets} {off : Nat} {r : Reg32} (h : o.reg32At off = some r) : o.reg32 r = off := by
  have := List.find?_some h
  simpa using this

/-- The offsets as the inequalities that their check stands for (R50). -/
theorem wellFormed_bounds {o : Offsets} (h : o.wellFormed = true) :
    (∀ e ∈ o.extents, e.1 + e.2 ≤ 4096) ∧ o.extents.Pairwise (fun a b => a.1 + a.2 ≤ b.1 ∨ b.1 + b.2 ≤ a.1) := by
  unfold Offsets.wellFormed at h
  simp only [Bool.and_eq_true, List.all_eq_true, decide_eq_true_eq] at h
  exact h

theorem reg32_lt {o : Offsets} (h : o.wellFormed = true) (r : Reg32) : o.reg32 r + 4 ≤ 4096 := by
  have hb := (wellFormed_bounds h).1
  simp only [Offsets.extents, List.mem_cons, List.not_mem_nil, or_false, forall_eq_or_imp, forall_eq] at hb
  cases r with
  | gcfg => simp only [Offsets.reg32]; omega
  | _ b => have := b.isLt; simp only [Offsets.reg32]; omega

theorem entry_lt {o : Offsets} (h : o.wellFormed = true) {n : Nat} (hn : n < 60) : o.entry n < 4096 := by
  have hb := (wellFormed_bounds h).1
  simp only [Offsets.extents, List.mem_cons, List.not_mem_nil, or_false, forall_eq_or_imp, forall_eq] at hb
  simp only [Offsets.entry]; omega

theorem extents_eq (o : Offsets) : o.extents = allReg32.map (fun r => (o.reg32 r, 4)) ++ [(o.pri, 60)] := by
  simp [Offsets.extents, allReg32, Offsets.reg32]

/-- Admissible offsets give different registers different places (R50). -/
theorem reg32_injective {o : Offsets} (h : o.wellFormed = true) {r r' : Reg32} (e : o.reg32 r = o.reg32 r') : r = r' := by
  have hp := (wellFormed_bounds h).2
  rw [extents_eq, List.pairwise_append] at hp
  have hq : allReg32.Pairwise (fun x y => o.reg32 x ≠ o.reg32 y) :=
    (List.pairwise_map.1 hp.1).imp (fun hxy => by omega)
  have : Std.Symm (fun x y => o.reg32 x ≠ o.reg32 y) := ⟨fun _ _ hxy => hxy.symm⟩
  by_contra hne
  exact hq.forall (mem_allReg32 r) (mem_allReg32 r') hne e

/-- The register at a register's own offset is that register (R53). -/
theorem reg32At_reg32 {o : Offsets} (h : o.wellFormed = true) (r : Reg32) : o.reg32At (o.reg32 r) = some r := by
  unfold Offsets.reg32At
  cases hf : allReg32.find? (fun x => o.reg32 x == o.reg32 r) with
  | none =>
    have := List.find?_eq_none.1 hf r (mem_allReg32 r)
    simp at this
  | some x =>
    have := List.find?_some hf
    simp only [beq_iff_eq] at this
    rw [reg32_injective h this]

theorem entryAt_entry (o : Offsets) {n : BitVec 6} (hn : n.toNat ≤ 59) : o.entryAt (o.entry n.toNat) = some n := by
  unfold Offsets.entryAt Offsets.entry
  rw [if_pos (by omega)]
  congr 1
  apply BitVec.eq_of_toNat_eq
  simp

theorem entryAt_eq_some {o : Offsets} {off : Nat} {n : BitVec 6} (h : o.entryAt off = some n) :
    n.toNat ≤ 59 ∧ o.entry n.toNat = off := by
  unfold Offsets.entryAt at h
  split at h
  · rename_i hb
    simp only [Option.some.injEq] at h
    subst h
    have : (off - o.pri) % 2 ^ 6 = off - o.pri := Nat.mod_eq_of_lt (by omega)
    simp only [BitVec.toNat_ofNat, this, Offsets.entry]
    omega
  · cases h

end Sys2Proof
end

