-- ==== Sys2Proof/Laws/State.lean ====
section
/-! SUPPORT. One lemma per field per update of the state, and one per reading accessor per update, so that no proof
unfolds a record update. -/

namespace Sys2Proof.Machine

/-! ### `withEn` -/

@[simp] theorem State.withEn_en (s : State) (f : Flags) : (s.withEn f).en = f := rfl
@[simp] theorem State.withEn_pend (s : State) (f : Flags) : (s.withEn f).pend = s.pend := rfl
@[simp] theorem State.withEn_act (s : State) (f : Flags) : (s.withEn f).act = s.act := rfl
@[simp] theorem State.withEn_pri (s : State) (f : Flags) : (s.withEn f).pri = s.pri := rfl
@[simp] theorem State.withEn_mode (s : State) (f : Flags) : (s.withEn f).mode = s.mode := rfl
@[simp] theorem State.withEn_offsets (s : State) (f : Flags) : (s.withEn f).offsets = s.offsets := rfl
@[simp] theorem State.withEn_todo (s : State) (f : Flags) : (s.withEn f).todo = s.todo := rfl
@[simp] theorem State.withEn_idx (s : State) (f : Flags) : (s.withEn f).idx = s.idx := rfl
@[simp] theorem State.withEn_resp (s : State) (f : Flags) : (s.withEn f).resp = s.resp := rfl
@[simp] theorem State.withEn_made (s : State) (f : Flags) : (s.withEn f).made = s.made := rfl
@[simp] theorem State.withEn_enabled (s : State) (f : Flags) (i : Line) : (s.withEn f).enabled i = flag f i := rfl
@[simp] theorem State.withEn_pending (s : State) (f : Flags) (i : Line) : (s.withEn f).pending i = s.pending i := rfl
@[simp] theorem State.withEn_active (s : State) (f : Flags) (i : Line) : (s.withEn f).active i = s.active i := rfl
@[simp] theorem State.withEn_prio (s : State) (f : Flags) (i : Line) : (s.withEn f).prio i = s.prio i := rfl

/-! ### `withPend` -/

@[simp] theorem State.withPend_en (s : State) (f : Flags) : (s.withPend f).en = s.en := rfl
@[simp] theorem State.withPend_pend (s : State) (f : Flags) : (s.withPend f).pend = f := rfl
@[simp] theorem State.withPend_act (s : State) (f : Flags) : (s.withPend f).act = s.act := rfl
@[simp] theorem State.withPend_pri (s : State) (f : Flags) : (s.withPend f).pri = s.pri := rfl
@[simp] theorem State.withPend_mode (s : State) (f : Flags) : (s.withPend f).mode = s.mode := rfl
@[simp] theorem State.withPend_offsets (s : State) (f : Flags) : (s.withPend f).offsets = s.offsets := rfl
@[simp] theorem State.withPend_todo (s : State) (f : Flags) : (s.withPend f).todo = s.todo := rfl
@[simp] theorem State.withPend_idx (s : State) (f : Flags) : (s.withPend f).idx = s.idx := rfl
@[simp] theorem State.withPend_resp (s : State) (f : Flags) : (s.withPend f).resp = s.resp := rfl
@[simp] theorem State.withPend_made (s : State) (f : Flags) : (s.withPend f).made = s.made := rfl
@[simp] theorem State.withPend_enabled (s : State) (f : Flags) (i : Line) : (s.withPend f).enabled i = s.enabled i := rfl
@[simp] theorem State.withPend_pending (s : State) (f : Flags) (i : Line) : (s.withPend f).pending i = flag f i := rfl
@[simp] theorem State.withPend_active (s : State) (f : Flags) (i : Line) : (s.withPend f).active i = s.active i := rfl
@[simp] theorem State.withPend_prio (s : State) (f : Flags) (i : Line) : (s.withPend f).prio i = s.prio i := rfl

/-! ### `withAct` -/

@[simp] theorem State.withAct_en (s : State) (f : Flags) : (s.withAct f).en = s.en := rfl
@[simp] theorem State.withAct_pend (s : State) (f : Flags) : (s.withAct f).pend = s.pend := rfl
@[simp] theorem State.withAct_act (s : State) (f : Flags) : (s.withAct f).act = f := rfl
@[simp] theorem State.withAct_pri (s : State) (f : Flags) : (s.withAct f).pri = s.pri := rfl
@[simp] theorem State.withAct_mode (s : State) (f : Flags) : (s.withAct f).mode = s.mode := rfl
@[simp] theorem State.withAct_offsets (s : State) (f : Flags) : (s.withAct f).offsets = s.offsets := rfl
@[simp] theorem State.withAct_todo (s : State) (f : Flags) : (s.withAct f).todo = s.todo := rfl
@[simp] theorem State.withAct_idx (s : State) (f : Flags) : (s.withAct f).idx = s.idx := rfl
@[simp] theorem State.withAct_resp (s : State) (f : Flags) : (s.withAct f).resp = s.resp := rfl
@[simp] theorem State.withAct_made (s : State) (f : Flags) : (s.withAct f).made = s.made := rfl
@[simp] theorem State.withAct_enabled (s : State) (f : Flags) (i : Line) : (s.withAct f).enabled i = s.enabled i := rfl
@[simp] theorem State.withAct_pending (s : State) (f : Flags) (i : Line) : (s.withAct f).pending i = s.pending i := rfl
@[simp] theorem State.withAct_active (s : State) (f : Flags) (i : Line) : (s.withAct f).active i = flag f i := rfl
@[simp] theorem State.withAct_prio (s : State) (f : Flags) (i : Line) : (s.withAct f).prio i = s.prio i := rfl

/-! ### `withPrio` -/

@[simp] theorem State.withPrio_en (s : State) (n : Line) (v : Byte) : (s.withPrio n v).en = s.en := rfl
@[simp] theorem State.withPrio_pend (s : State) (n : Line) (v : Byte) : (s.withPrio n v).pend = s.pend := rfl
@[simp] theorem State.withPrio_act (s : State) (n : Line) (v : Byte) : (s.withPrio n v).act = s.act := rfl
@[simp] theorem State.withPrio_pri (s : State) (n : Line) (v : Byte) : (s.withPrio n v).pri = s.pri.set n.val v n.isLt := rfl
@[simp] theorem State.withPrio_mode (s : State) (n : Line) (v : Byte) : (s.withPrio n v).mode = s.mode := rfl
@[simp] theorem State.withPrio_offsets (s : State) (n : Line) (v : Byte) : (s.withPrio n v).offsets = s.offsets := rfl
@[simp] theorem State.withPrio_todo (s : State) (n : Line) (v : Byte) : (s.withPrio n v).todo = s.todo := rfl
@[simp] theorem State.withPrio_idx (s : State) (n : Line) (v : Byte) : (s.withPrio n v).idx = s.idx := rfl
@[simp] theorem State.withPrio_resp (s : State) (n : Line) (v : Byte) : (s.withPrio n v).resp = s.resp := rfl
@[simp] theorem State.withPrio_made (s : State) (n : Line) (v : Byte) : (s.withPrio n v).made = s.made := rfl
@[simp] theorem State.withPrio_enabled (s : State) (n : Line) (v : Byte) (i : Line) : (s.withPrio n v).enabled i = s.enabled i := rfl
@[simp] theorem State.withPrio_pending (s : State) (n : Line) (v : Byte) (i : Line) : (s.withPrio n v).pending i = s.pending i := rfl
@[simp] theorem State.withPrio_active (s : State) (n : Line) (v : Byte) (i : Line) : (s.withPrio n v).active i = s.active i := rfl

/-! ### `withMode` -/

@[simp] theorem State.withMode_en (s : State) (m : Option (BitVec 3)) : (s.withMode m).en = s.en := rfl
@[simp] theorem State.withMode_pend (s : State) (m : Option (BitVec 3)) : (s.withMode m).pend = s.pend := rfl
@[simp] theorem State.withMode_act (s : State) (m : Option (BitVec 3)) : (s.withMode m).act = s.act := rfl
@[simp] theorem State.withMode_pri (s : State) (m : Option (BitVec 3)) : (s.withMode m).pri = s.pri := rfl
@[simp] theorem State.withMode_mode (s : State) (m : Option (BitVec 3)) : (s.withMode m).mode = m := rfl
@[simp] theorem State.withMode_offsets (s : State) (m : Option (BitVec 3)) : (s.withMode m).offsets = s.offsets := rfl
@[simp] theorem State.withMode_todo (s : State) (m : Option (BitVec 3)) : (s.withMode m).todo = s.todo := rfl
@[simp] theorem State.withMode_idx (s : State) (m : Option (BitVec 3)) : (s.withMode m).idx = s.idx := rfl
@[simp] theorem State.withMode_resp (s : State) (m : Option (BitVec 3)) : (s.withMode m).resp = s.resp := rfl
@[simp] theorem State.withMode_made (s : State) (m : Option (BitVec 3)) : (s.withMode m).made = s.made := rfl
@[simp] theorem State.withMode_enabled (s : State) (m : Option (BitVec 3)) (i : Line) : (s.withMode m).enabled i = s.enabled i := rfl
@[simp] theorem State.withMode_pending (s : State) (m : Option (BitVec 3)) (i : Line) : (s.withMode m).pending i = s.pending i := rfl
@[simp] theorem State.withMode_active (s : State) (m : Option (BitVec 3)) (i : Line) : (s.withMode m).active i = s.active i := rfl
@[simp] theorem State.withMode_prio (s : State) (m : Option (BitVec 3)) (i : Line) : (s.withMode m).prio i = s.prio i := rfl

/-! ### `start` -/

@[simp] theorem State.start_en (s : State) : (s.start).en = s.en := rfl
@[simp] theorem State.start_pend (s : State) : (s.start).pend = s.pend := rfl
@[simp] theorem State.start_act (s : State) : (s.start).act = s.act := rfl
@[simp] theorem State.start_pri (s : State) : (s.start).pri = s.pri := rfl
@[simp] theorem State.start_mode (s : State) : (s.start).mode = s.mode := rfl
@[simp] theorem State.start_offsets (s : State) : (s.start).offsets = s.offsets := rfl
@[simp] theorem State.start_todo (s : State) : (s.start).todo = s.todo := rfl
@[simp] theorem State.start_idx (s : State) : (s.start).idx = s.idx := rfl
@[simp] theorem State.start_resp (s : State) : (s.start).resp = s.resp := rfl
@[simp] theorem State.start_made (s : State) : (s.start).made = [] := rfl
@[simp] theorem State.start_enabled (s : State) (i : Line) : (s.start).enabled i = s.enabled i := rfl
@[simp] theorem State.start_pending (s : State) (i : Line) : (s.start).pending i = s.pending i := rfl
@[simp] theorem State.start_active (s : State) (i : Line) : (s.start).active i = s.active i := rfl
@[simp] theorem State.start_prio (s : State) (i : Line) : (s.start).prio i = s.prio i := rfl

/-! ### `record` -/

@[simp] theorem State.record_en (s : State) (a : Access) : (s.record a).en = s.en := rfl
@[simp] theorem State.record_pend (s : State) (a : Access) : (s.record a).pend = s.pend := rfl
@[simp] theorem State.record_act (s : State) (a : Access) : (s.record a).act = s.act := rfl
@[simp] theorem State.record_pri (s : State) (a : Access) : (s.record a).pri = s.pri := rfl
@[simp] theorem State.record_mode (s : State) (a : Access) : (s.record a).mode = s.mode := rfl
@[simp] theorem State.record_offsets (s : State) (a : Access) : (s.record a).offsets = s.offsets := rfl
@[simp] theorem State.record_todo (s : State) (a : Access) : (s.record a).todo = s.todo := rfl
@[simp] theorem State.record_idx (s : State) (a : Access) : (s.record a).idx = s.idx := rfl
@[simp] theorem State.record_resp (s : State) (a : Access) : (s.record a).resp = s.resp := rfl
@[simp] theorem State.record_made (s : State) (a : Access) : (s.record a).made = s.made ++ [a] := rfl
@[simp] theorem State.record_enabled (s : State) (a : Access) (i : Line) : (s.record a).enabled i = s.enabled i := rfl
@[simp] theorem State.record_pending (s : State) (a : Access) (i : Line) : (s.record a).pending i = s.pending i := rfl
@[simp] theorem State.record_active (s : State) (a : Access) (i : Line) : (s.record a).active i = s.active i := rfl
@[simp] theorem State.record_prio (s : State) (a : Access) (i : Line) : (s.record a).prio i = s.prio i := rfl

/-! ### `reply` -/

@[simp] theorem State.reply_en (s : State) (r : Response) : (s.reply r).en = s.en := rfl
@[simp] theorem State.reply_pend (s : State) (r : Response) : (s.reply r).pend = s.pend := rfl
@[simp] theorem State.reply_act (s : State) (r : Response) : (s.reply r).act = s.act := rfl
@[simp] theorem State.reply_pri (s : State) (r : Response) : (s.reply r).pri = s.pri := rfl
@[simp] theorem State.reply_mode (s : State) (r : Response) : (s.reply r).mode = s.mode := rfl
@[simp] theorem State.reply_offsets (s : State) (r : Response) : (s.reply r).offsets = s.offsets := rfl
@[simp] theorem State.reply_todo (s : State) (r : Response) : (s.reply r).todo = s.todo := rfl
@[simp] theorem State.reply_idx (s : State) (r : Response) : (s.reply r).idx = s.idx := rfl
@[simp] theorem State.reply_resp (s : State) (r : Response) : (s.reply r).resp = r := rfl
@[simp] theorem State.reply_made (s : State) (r : Response) : (s.reply r).made = s.made := rfl
@[simp] theorem State.reply_enabled (s : State) (r : Response) (i : Line) : (s.reply r).enabled i = s.enabled i := rfl
@[simp] theorem State.reply_pending (s : State) (r : Response) (i : Line) : (s.reply r).pending i = s.pending i := rfl
@[simp] theorem State.reply_active (s : State) (r : Response) (i : Line) : (s.reply r).active i = s.active i := rfl
@[simp] theorem State.reply_prio (s : State) (r : Response) (i : Line) : (s.reply r).prio i = s.prio i := rfl

/-- A write of one priority entry is read back there and nowhere else (R26, R161). -/
@[simp] theorem State.withPrio_prio (s : State) (n : Line) (v : Byte) (i : Line) :
    (s.withPrio n v).prio i = if i = n then v else s.prio i := by
  by_cases h : i = n
  · subst h; simp [State.prio, State.withPrio]
  · have : n.val ≠ i.val := fun e => h (Fin.ext e.symm)
    simp [State.prio, State.withPrio, h, this]

end Sys2Proof.Machine
end

