-- ==== Sys2Proof/Laws/Flags.lean ====
section
/-! SUPPORT. What the flag operations and the operand functions compute, bit by bit and case by case. -/

namespace Sys2Proof.Machine

theorem getLsbD_one_shift (n k : Nat) : (1#60 <<< n).getLsbD k = (decide (k < 60) && decide (k = n)) := by
  by_cases h : k = n
  · simp [BitVec.getLsbD_shiftLeft, h]
  · simp [BitVec.getLsbD_shiftLeft, BitVec.getLsbD_one, h]; omega

theorem flag_setFlag (f : Flags) (j i : Line) : flag (setFlag f j) i = if i = j then true else flag f i := by
  simp only [flag, setFlag, BitVec.getLsbD_or, getLsbD_one_shift]
  by_cases h : i = j
  · simp [h]
  · have hv : i.val ≠ j.val := fun e => h (Fin.ext e)
    simp [h, hv]

theorem flag_clearFlag (f : Flags) (j i : Line) : flag (clearFlag f j) i = if i = j then false else flag f i := by
  simp only [flag, clearFlag, BitVec.getLsbD_and, BitVec.getLsbD_not, getLsbD_one_shift]
  by_cases h : i = j
  · simp [h]
  · have hv : i.val ≠ j.val := fun e => h (Fin.ext e)
    simp [h, hv]

/-- Line `i` is among the lines that a word written to bank `b` names exactly if its bit in its own bank is 1 (R29, R31). -/
theorem flag_bankLines (b : Bank) (w : Word) (i : Line) : flag (bankLines b w) i = true ↔ Names b w i := by
  have hi := i.isLt
  have hb := b.isLt
  simp only [flag, bankLines, Names, BitVec.getLsbD_shiftLeft, BitVec.getLsbD_setWidth, Bool.and_eq_true,
    decide_eq_true_eq, Bool.not_eq_true', decide_eq_false_iff_not]
  constructor
  · rintro ⟨⟨_, h1⟩, _, h2⟩
    have hlt := BitVec.lt_of_getLsbD h2
    have e : i.val / 32 = b.val := by omega
    refine ⟨e, ?_⟩
    have : i.val % 32 = i.val - 32 * b.val := by omega
    rw [this]; exact h2
  · rintro ⟨e, h2⟩
    have : i.val % 32 = i.val - 32 * b.val := by omega
    rw [this] at h2
    exact ⟨⟨by omega, by omega⟩, by omega, h2⟩

theorem flag_setBank_of_names {f : Flags} {b : Bank} {w : Word} {i : Line} (h : Names b w i) :
    flag (setBank f b w) i = true := by
  have := (flag_bankLines b w i).2 h
  simp only [flag] at this
  simp only [flag, setBank, BitVec.getLsbD_or, this, Bool.or_true]

theorem flag_setBank_of_not_names {f : Flags} {b : Bank} {w : Word} {i : Line} (h : ¬ Names b w i) :
    flag (setBank f b w) i = flag f i := by
  have : flag (bankLines b w) i = false := by
    rw [← Bool.not_eq_true]; exact fun e => h ((flag_bankLines b w i).1 e)
  simp only [flag] at this
  simp only [flag, setBank, BitVec.getLsbD_or, this, Bool.or_false]

theorem flag_clearBank_of_names {f : Flags} {b : Bank} {w : Word} {i : Line} (h : Names b w i) :
    flag (clearBank f b w) i = false := by
  have := (flag_bankLines b w i).2 h
  simp only [flag] at this
  simp [flag, clearBank, this, -BitVec.getLsbD_eq_getElem]

theorem flag_clearBank_of_not_names {f : Flags} {b : Bank} {w : Word} {i : Line} (h : ¬ Names b w i) :
    flag (clearBank f b w) i = flag f i := by
  have : flag (bankLines b w) i = false := by
    rw [← Bool.not_eq_true]; exact fun e => h ((flag_bankLines b w i).1 e)
  simp only [flag] at this
  simp [flag, clearBank, this, -BitVec.getLsbD_eq_getElem]

/-- The bank view shows the flags of its bank (R30). -/
theorem showsBank_bankView (f : Flags) (b : Bank) : ShowsBank (bankView f b) b (flag f) := by
  constructor
  · intro i h
    have : 32 * b.val + i.val % 32 = i.val := by omega
    have h32 : i.val % 32 < 32 := by omega
    simp [bankView, flag, this, h32]
  · intro k h
    simp only [bankView, BitVec.getLsbD_setWidth, BitVec.getLsbD_ushiftRight]
    rw [BitVec.getLsbD_of_ge f _ h]; simp

/-! ### Operands -/

theorem checkLine_of_le {line : Byte} (h : line.toNat < 60) : checkLine line = some ⟨line.toNat, h⟩ := by
  simp [checkLine, h]

theorem checkLine_of_toNat {line : Byte} {i : Line} (h : line.toNat = i.val) : checkLine line = some i := by
  have := i.isLt
  rw [checkLine_of_le (by omega)]
  exact congrArg some (Fin.ext h)

theorem checkLine_of_ge {line : Byte} (h : 60 ≤ line.toNat) : checkLine line = none := by
  simp [checkLine]; omega

theorem checkLine_eq_some {line : Byte} {i : Line} (h : checkLine line = some i) : line.toNat = i.val := by
  unfold checkLine at h
  split at h
  · cases h; rfl
  · cases h

theorem checkLine_eq_none {line : Byte} (h : checkLine line = none) : 60 ≤ line.toNat := by
  unfold checkLine at h
  split at h
  · cases h
  · omega

theorem checkEntry_of_toNat {n : BitVec 6} {i : Line} (h : n.toNat = i.val) : checkEntry n = some i := by
  have := i.isLt
  have h60 : n.toNat < 60 := by omega
  simp only [checkEntry, h60, dite_true]
  exact congrArg some (Fin.ext h)

theorem checkEntry_of_ge {n : BitVec 6} (h : 60 ≤ n.toNat) : checkEntry n = none := by
  simp [checkEntry]; omega

theorem checkEntry_eq_some {n : BitVec 6} {i : Line} (h : checkEntry n = some i) : n.toNat = i.val := by
  unfold checkEntry at h
  split at h
  · cases h; rfl
  · cases h

@[simp] theorem lineBank_val (i : Line) : (lineBank i).val = i.val / 32 := rfl

/-- The mask has exactly one 1, at `bitpos` (R84). -/
theorem getLsbD_maskOf (n k : Nat) : (maskOf n).getLsbD k = decide (k = n % 32) := by
  unfold maskOf bitposOf
  by_cases h : k = n % 32
  · subst h
    have : n % 32 < 32 := by omega
    simp [this]
  · simp [BitVec.getLsbD_shiftLeft, BitVec.getLsbD_one, h]; omega

/-- The mask of a line, written to the line's bank, names that line alone (R84, R86). -/
theorem names_maskOf (n i : Line) : Names (lineBank n) (maskOf n.val) i ↔ i = n := by
  simp only [Names, lineBank_val, getLsbD_maskOf, decide_eq_true_eq]
  constructor
  · rintro ⟨h1, h2⟩; exact Fin.ext (by omega)
  · rintro rfl; exact ⟨rfl, rfl⟩

/-! ### The grouping word and the unlock check -/

theorem getLsbD_append16 (k v : Half) (i : Nat) :
    (k ++ v : Word).getLsbD i = if i < 16 then v.getLsbD i else k.getLsbD (i - 16) :=
  BitVec.getLsbD_append

/-- The grouping word is the key beside the selector (R88). -/
theorem gword_eq_append (sel : Half) : gword sel = Config.unlockKey ++ sel := by
  apply BitVec.eq_of_getLsbD_eq
  intro i hi
  rw [getLsbD_append16]
  by_cases h : i < 16
  · simp [gword, h, hi]
  · simp [gword, h, hi, BitVec.getLsbD_of_ge sel i (by omega)]

theorem extractLsb'_high_append (k v : Half) : (k ++ v : Word).extractLsb' 16 16 = k := by
  apply BitVec.eq_of_getLsbD_eq
  intro i hi
  rw [BitVec.getLsbD_extractLsb', getLsbD_append16]
  simp [hi]

theorem extractLsb'_low_append (k v : Half) (a n : Nat) (h : a + n ≤ 16) :
    (k ++ v : Word).extractLsb' a n = v.extractLsb' a n := by
  apply BitVec.eq_of_getLsbD_eq
  intro i hi
  have : a + i < 16 := by omega
  rw [BitVec.getLsbD_extractLsb', getLsbD_append16, BitVec.getLsbD_extractLsb']
  simp [this]

/-- `GCFG` reads as `KEY_READ` beside the mode's own half (R164). -/
theorem gcfgRead_eq_append (m : BitVec 3) : gcfgRead m = Config.keyRead ++ (m.setWidth 16 <<< 8 : Half) := by
  apply BitVec.eq_of_getLsbD_eq
  intro i hi
  rw [getLsbD_append16]
  simp only [gcfgRead, BitVec.getLsbD_or, BitVec.getLsbD_shiftLeft, BitVec.getLsbD_setWidth, hi, decide_true, Bool.true_and]
  by_cases h : i < 16
  · by_cases h8 : i < 8
    · simp [h, h8]
    · have : i - 8 < 32 := by omega
      have h16 : i - 8 < 16 := by omega
      simp [h, h8, this, h16]
  · have h3 : m.getLsbD (i - 8) = false := BitVec.getLsbD_of_ge m _ (by omega)
    have : i - 16 < 32 := by omega
    simp [h, h3, this]

theorem gcfgClean_iff (w : Word) : gcfgClean w = true ↔ IsClean w := by
  simp [gcfgClean, IsClean]

theorem unlockNext_of_wrong_key {key : Half} {w : Word} (mode : Option (BitVec 3)) (h : w.extractLsb' 16 16 ≠ key) :
    unlockNext key w mode = some mode := by
  simp [unlockNext, keyField, h]

theorem unlockNext_of_clean {key : Half} {w : Word} (mode : Option (BitVec 3)) (h : w.extractLsb' 16 16 = key)
    (c : IsClean w) : unlockNext key w mode = some (some (w.extractLsb' 8 3)) := by
  simp [unlockNext, keyField, modeField, h, (gcfgClean_iff w).2 c]

theorem unlockNext_of_not_clean {key : Half} {w : Word} (mode : Option (BitVec 3)) (h : w.extractLsb' 16 16 = key)
    (c : ¬ IsClean w) : unlockNext key w mode = none := by
  have : gcfgClean w = false := by rw [← Bool.not_eq_true, gcfgClean_iff]; exact c
  simp [unlockNext, keyField, h, this]

theorem isSelector_selectorOf (m : GroupMode) : IsSelector (selectorOf m) := by
  cases m <;> simp [IsSelector, selectorOf]

theorem checkSel_of_isSelector {sel : Half} (h : IsSelector sel) : ∃ m, checkSel sel = some m ∧ selectorOf m = sel := by
  rcases h with rfl | rfl | rfl | rfl | rfl
  · exact ⟨.g4s0, by decide, rfl⟩
  · exact ⟨.g3s1, by decide, rfl⟩
  · exact ⟨.g2s2, by decide, rfl⟩
  · exact ⟨.g1s3, by decide, rfl⟩
  · exact ⟨.g0s4, by decide, rfl⟩

theorem checkSel_eq_some {sel : Half} {m : GroupMode} (h : checkSel sel = some m) : IsSelector sel := by
  have := List.find?_some h
  simp only [beq_iff_eq] at this
  exact this ▸ isSelector_selectorOf m

theorem checkSel_of_not_isSelector {sel : Half} (h : ¬ IsSelector sel) : checkSel sel = none := by
  cases hc : checkSel sel with
  | none => rfl
  | some m => exact absurd (checkSel_eq_some hc) h

/-- A grouping word with one of the five selectors is clean (R88, R89). -/
theorem isClean_gword {sel : Half} (h : IsSelector sel) : IsClean (gword sel) := by
  rw [gword_eq_append]
  unfold IsClean
  rw [extractLsb'_low_append _ _ 11 5 (by omega), extractLsb'_low_append _ _ 0 8 (by omega)]
  rcases h with rfl | rfl | rfl | rfl | rfl <;> decide

end Sys2Proof.Machine
end

