-- ==== Sys2Proof/Laws/Exec.lean ====
section
/-! SUPPORT. What each shared operation answers, said once: the register writes and reads, the check of a line, and the
steps built of them. Proofs about instructions cite these and unfold nothing. -/

namespace Sys2Proof.Machine

/-! ### Register writes and reads -/

theorem writeStep_es (b : Bank) (w : Word) (s : State) : writeStep (.es b) w s =
    .next { s with en := setBank s.en b w, resp := .done, made := [.wr32 (.es b) w] } := rfl

theorem writeStep_ec (b : Bank) (w : Word) (s : State) : writeStep (.ec b) w s =
    .next { s with en := clearBank s.en b w, resp := .done, made := [.wr32 (.ec b) w] } := rfl

theorem writeStep_ps (b : Bank) (w : Word) (s : State) : writeStep (.ps b) w s =
    .next { s with pend := setBank s.pend b w, resp := .done, made := [.wr32 (.ps b) w] } := rfl

theorem writeStep_pc (b : Bank) (w : Word) (s : State) : writeStep (.pc b) w s =
    .next { s with pend := clearBank s.pend b w, resp := .done, made := [.wr32 (.pc b) w] } := rfl

theorem writeStep_af (b : Bank) (w : Word) (s : State) : writeStep (.af b) w s =
    .next { s with resp := .done, made := [.wr32 (.af b) w] } := rfl

/-- A write of `GCFG` with a wrong key is ignored (R163 (a)). -/
theorem writeStep_gcfg_of_wrong_key {w : Word} (h : w.extractLsb' 16 16 ≠ Config.unlockKey) (s : State) :
    writeStep .gcfg w s = .next { s with resp := .done, made := [.wr32 .gcfg w] } := by
  simp [writeStep, write32, unlockNext_of_wrong_key _ h]; rfl

/-- A key-matched clean write of `GCFG` stores bits 10:8 (R163 (b)). -/
theorem writeStep_gcfg_of_clean {w : Word} (h : w.extractLsb' 16 16 = Config.unlockKey) (c : IsClean w) (s : State) :
    writeStep .gcfg w s =
      .next { s with mode := some (w.extractLsb' 8 3), resp := .done, made := [.wr32 .gcfg w] } := by
  simp [writeStep, write32, unlockNext_of_clean _ h c]; rfl

/-- A key-matched write of `GCFG` with another bit set is refused (R163 (c)). -/
theorem writeStep_gcfg_of_not_clean {w : Word} (h : w.extractLsb' 16 16 = Config.unlockKey) (c : ¬ IsClean w)
    (s : State) : writeStep .gcfg w s = .refused .keyedWriteNotClean := by
  simp [writeStep, write32, unlockNext_of_not_clean _ h c]

/-- Everything a completed write of `GCFG` can be (R165). -/
theorem writeStep_gcfg_cases {w : Word} {s t : State} (h : writeStep .gcfg w s = .next t) :
    (w.extractLsb' 16 16 ≠ Config.unlockKey ∧ t = { s with resp := .done, made := [.wr32 .gcfg w] }) ∨
      (w.extractLsb' 16 16 = Config.unlockKey ∧ IsClean w ∧
        t = { s with mode := some (w.extractLsb' 8 3), resp := .done, made := [.wr32 .gcfg w] }) := by
  by_cases hk : w.extractLsb' 16 16 = Config.unlockKey
  · by_cases hc : IsClean w
    · rw [writeStep_gcfg_of_clean hk hc] at h; cases h; exact .inr ⟨hk, hc, rfl⟩
    · rw [writeStep_gcfg_of_not_clean hk hc] at h; cases h
  · rw [writeStep_gcfg_of_wrong_key hk] at h; cases h; exact .inl ⟨hk, rfl⟩

/-- The write of the grouping word of one of the five selectors always takes effect (R131). -/
theorem writeStep_gword {sel : Half} (h : IsSelector sel) (s : State) : writeStep .gcfg (gword sel) s =
    .next { s with mode := some (sel.extractLsb' 8 3), resp := .done,
                   made := [.wr32 .gcfg (Config.unlockKey ++ sel)] } := by
  have hc := isClean_gword h
  rw [gword_eq_append] at hc ⊢
  rw [writeStep_gcfg_of_clean (extractLsb'_high_append _ _) hc, extractLsb'_low_append _ _ 8 3 (by omega)]

/-- A read of a banked register answers the view of its flags and changes nothing of the block (R56). -/
theorem readStep_of_value {r : Reg32} {s : State} {v : Word} (h : value32 r s = .ok v) (reply : Word → Response) :
    readStep r reply s = .next { s with resp := reply v, made := [.rd32 r] } := by
  simp [readStep, h]; rfl

theorem readStep_of_error {r : Reg32} {s : State} {e : Refusal} (h : value32 r s = .error e) (reply : Word → Response) :
    readStep r reply s = .refused e := by
  simp [readStep, h]

theorem value32_gcfg_of_some {s : State} {m : BitVec 3} (h : s.mode = some m) : value32 .gcfg s = .ok (gcfgRead m) := by
  simp [value32, h]

theorem value32_gcfg_of_none {s : State} (h : s.mode = none) : value32 .gcfg s = .error .modeHasNoValue := by
  simp [value32, h]

theorem writePriStep_eq (i : Line) (v : Byte) (s : State) : writePriStep i v s =
    .next { s with pri := s.pri.set i.val v i.isLt, resp := .done, made := [.wr8 i v] } := rfl

theorem readPriStep_eq (i : Line) (s : State) :
    readPriStep i s = .next { s with resp := .data8 (s.prio i), made := [.rd8 i] } := rfl

/-! ### The check of a line, and the rejection -/

theorem reject_eq (e : OpError) (s : State) : reject e s = .next { s with resp := .rejected e, made := [] } := rfl

theorem onLine_of_line {line : Byte} {i : Line} (h : line.toNat = i.val) (act : Line → State → Result) (s : State) :
    onLine line act s = act i s := by
  simp [onLine, checkLine_of_toNat h]

theorem onLine_of_ge {line : Byte} (h : 60 ≤ line.toNat) (act : Line → State → Result) (s : State) :
    onLine line act s = .next { s with resp := .rejected (.invalidLine line), made := [] } := by
  simp [onLine, checkLine_of_ge h, reject_eq]

/-- Everything an operation on a line can be (R110): the access, on a line that exists, or the rejection. -/
theorem onLine_cases {line : Byte} {act : Line → State → Result} {s : State} {out : Result}
    (h : onLine line act s = out) :
    (∃ i : Line, line.toNat = i.val ∧ act i s = out) ∨
      (60 ≤ line.toNat ∧ out = .next { s with resp := .rejected (.invalidLine line), made := [] }) := by
  by_cases hl : line.toNat < 60
  · exact .inl ⟨⟨line.toNat, hl⟩, rfl, by rw [← onLine_of_line (i := ⟨line.toNat, hl⟩) rfl act s]; exact h⟩
  · exact .inr ⟨by omega, by rw [← h, onLine_of_ge (by omega)]⟩

theorem execSetgrp_of_isSelector {sel : Half} (h : IsSelector sel) (s : State) : execSetgrp sel s =
    .next { s with mode := some (sel.extractLsb' 8 3), resp := .done,
                   made := [.wr32 .gcfg (Config.unlockKey ++ sel)] } := by
  obtain ⟨m, hm, -⟩ := checkSel_of_isSelector h
  simp only [execSetgrp, hm]
  exact writeStep_gword h s

theorem execSetgrp_of_not_isSelector {sel : Half} (h : ¬ IsSelector sel) (s : State) :
    execSetgrp sel s = .next { s with resp := .rejected (.invalidGroupingMode sel), made := [] } := by
  simp [execSetgrp, checkSel_of_not_isSelector h, reject_eq]

/-! ### Events -/

theorem execIrq_eq (i : Line) (s : State) :
    execIrq i s = .next { s with pend := setFlag s.pend i, resp := .done, made := [] } := rfl

theorem execRet_of_active {i : Line} {s : State} (h : s.active i = true) :
    execRet i s = .next { s with act := clearFlag s.act i, resp := .done, made := [] } := by
  simp [execRet, h]; rfl

theorem execRet_of_not_active {i : Line} {s : State} (h : s.active i = false) :
    execRet i s = .next { s with resp := .notEnabled, made := [] } := by
  simp [execRet, h]; rfl

theorem eventNotEnabled_eq (s : State) : eventNotEnabled s = .next { s with resp := .notEnabled, made := [] } := rfl

theorem modeOfBits_modeBits (m : GroupMode) : modeOfBits (modeBits m) = some m := by
  cases m <;> rfl

theorem modeOfBits_eq_some : ∀ {m : BitVec 3} {g : GroupMode}, modeOfBits m = some g → m = modeBits g := by
  decide

theorem modeOfBits_eq_none : ∀ {m : BitVec 3}, modeOfBits m = none ↔ m.toNat < 3 := by
  decide

/-- There is a mode in force exactly while `MODE` is in 3..7 (R201). -/
theorem definedMode_eq_none (s : State) : definedMode s = none ↔ ¬ ModeDefined s := by
  unfold definedMode ModeDefined
  cases hm : s.mode with
  | none => simp
  | some m => simp [modeOfBits_eq_none]

theorem definedMode_eq_some (s : State) (g : GroupMode) : definedMode s = some g ↔ s.mode = some (modeBits g) := by
  unfold definedMode
  cases hm : s.mode with
  | none => simp
  | some m =>
    simp only [Option.some.injEq]
    exact ⟨modeOfBits_eq_some, fun h => h ▸ modeOfBits_modeBits g⟩

/-- Everything a TAKE can be (R199, R201). -/
theorem execTake_cases {s : State} {out : Result} (h : execTake s = out) :
    (definedMode s = none ∧ out = .refused .modeHasNoSplit) ∨
      (∃ m w, definedMode s = some m ∧ winner m s = some w ∧ mayPreempt m s w = true ∧
        out = .next { s with pend := clearFlag s.pend w, act := setFlag s.act w, resp := .done, made := [] }) ∨
      (∃ m, definedMode s = some m ∧ preemptOk m s = false ∧
        out = .next { s with resp := .notEnabled, made := [] }) := by
  subst h
  unfold execTake
  cases hm : definedMode s with
  | none => exact .inl ⟨rfl, rfl⟩
  | some m =>
    refine .inr ?_
    cases hw : winner m s with
    | none => exact .inr ⟨m, rfl, by simp [preemptOk, hw], by simp [hw, eventNotEnabled_eq]⟩
    | some w =>
      cases hp : mayPreempt m s w with
      | true => exact .inl ⟨m, w, rfl, hw, hp, by simp [hw, hp]; rfl⟩
      | false => exact .inr ⟨m, rfl, by simp [preemptOk, hw, hp], by simp [hw, hp, eventNotEnabled_eq]⟩

/-- R195, as a statement about every active line. -/
theorem mayPreempt_iff (m : GroupMode) (s : State) (w : Line) :
    mayPreempt m s w = true ↔
      ∀ j : Line, s.active j = true → (grp m (s.prio w)).toNat < (grp m (s.prio j)).toNat := by
  simp only [mayPreempt, List.all_eq_true, List.mem_finRange, true_implies, Bool.or_eq_true, Bool.not_eq_true',
    decide_eq_true_eq]
  refine forall_congr' fun j => ?_
  cases s.active j <;> simp

theorem mem_candidates (s : State) (i : Line) : i ∈ candidates s ↔ candidate s i = true := by
  simp [candidates]

end Sys2Proof.Machine
end

