-- ==== Sys2Proof/Laws/PerInstr.lean ====
section
/-! SUPPORT. Per instruction: the encoder's words match the instruction's row of the opcode table (R82, R91). -/

namespace Sys2Proof.Laws

/-- The match and mask of an instruction's row of the opcode table, 32 bits for a command word, 16 for a header. -/
def MatchesRow.row : Instr → Nat × Nat
  | .enable _ => (0x00000000, 0xFFFFFF00)
  | .disable _ => (0x10000000, 0xFFFFFF00)
  | .setpend _ => (0x20000000, 0xFFFFFF00)
  | .clrpend _ => (0x30000000, 0xFFFFFF00)
  | .isactive _ => (0x40000000, 0xFFFFFF00)
  | .setpri _ _ => (0x50000000, 0xFF00FF00)
  | .setgrp _ => (0x60000000, 0xFFFF0000)
  | .init => (0x70000000, 0xFFFFFFFF)
  | .wrEs _ _ => (0xA100, 0xFFFB)
  | .rdEs _ => (0x2100, 0xFFFB)
  | .wrEc _ _ => (0xA180, 0xFFFB)
  | .rdEc _ => (0x2180, 0xFFFB)
  | .wrPs _ _ => (0xA200, 0xFFFB)
  | .rdPs _ => (0x2200, 0xFFFB)
  | .wrPc _ _ => (0xA280, 0xFFFB)
  | .rdPc _ => (0x2280, 0xFFFB)
  | .rdAf _ => (0x2300, 0xFFFB)
  | .wrAf _ _ => (0xA300, 0xFFFB)
  | .wrPri _ _ => (0x8400, 0xFFC0)
  | .rdPri _ => (0x0400, 0xFFC0)
  | .wrGcfg _ => (0xAD0C, 0xFFFF)
  | .rdGcfg => (0x2D0C, 0xFFFF)

/-- The encoding of a well-formed instruction, with the default offsets, comes on the port of its agent and carries its
row's match under its row's mask. -/
def MatchesRow.Statement (i : Instr) : Prop :=
  i.wellFormed = true →
    match encode Config.offsets i with
    | .command w => i.isOperation = true ∧ w &&& BitVec.ofNat 32 (row i).2 = BitVec.ofNat 32 (row i).1
    | .bus h _ => i.isOperation = false ∧ h &&& BitVec.ofNat 16 (row i).2 = BitVec.ofNat 16 (row i).1

theorem MatchesRow.enable (line : Byte) : Statement (.enable line) :=
  fun _ => ⟨rfl, by revert line; decide⟩

theorem MatchesRow.disable (line : Byte) : Statement (.disable line) :=
  fun _ => ⟨rfl, by revert line; decide⟩

theorem MatchesRow.setpend (line : Byte) : Statement (.setpend line) :=
  fun _ => ⟨rfl, by revert line; decide⟩

theorem MatchesRow.clrpend (line : Byte) : Statement (.clrpend line) :=
  fun _ => ⟨rfl, by revert line; decide⟩

theorem MatchesRow.isactive (line : Byte) : Statement (.isactive line) :=
  fun _ => ⟨rfl, by revert line; decide⟩

/-- A command word's fields under a mask that keeps the upper ones and drops the operand. -/
theorem MatchesRow.and_operand {n k : Nat} (x y : BitVec n) (z : BitVec k) :
    (x ++ z) &&& (y ++ 0#k) = (x &&& y) ++ 0#k := by
  rw [BitVec.and_append, BitVec.and_zero]

theorem MatchesRow.setpri (line : Byte) (prio : Byte) : Statement (.setpri line prio) := by
  refine fun _ => ⟨rfl, ?_⟩
  have hmask : BitVec.ofNat 32 (row (.setpri line prio)).2 = ((0xFF#8 ++ 0#8 ++ 0xFF#8) ++ 0#8 : BitVec (8 + 8 + 8 + 8)) := by
    change BitVec.ofNat 32 0xFF00FF00 = _
    decide
  have fields : (0x5#4 ++ 0#4 ++ prio ++ 0#8 : BitVec (8 + 8 + 8)) &&& (0xFF#8 ++ 0#8 ++ 0xFF#8) = 0x50#8 ++ 0#8 ++ 0#8 := by
    rw [BitVec.and_append, BitVec.and_append, BitVec.and_zero]
    decide
  rw [hmask]
  refine (and_operand (0x5#4 ++ 0#4 ++ prio ++ 0#8 : BitVec (8 + 8 + 8)) _ line).trans ?_
  rw [fields]
  change _ = BitVec.ofNat 32 0x50000000
  decide

theorem MatchesRow.setgrp (sel : Half) : Statement (.setgrp sel) := by
  refine fun _ => ⟨rfl, ?_⟩
  have hmask : BitVec.ofNat 32 (row (.setgrp sel)).2 = (0xFFFF#16 ++ 0#16 : BitVec (16 + 16)) := by
    change BitVec.ofNat 32 0xFFFF0000 = _
    decide
  rw [hmask]
  refine (and_operand (0x6#4 ++ 0#12 : BitVec 16) _ sel).trans ?_
  change _ = BitVec.ofNat 32 0x60000000
  decide

theorem MatchesRow.init : Statement .init :=
  fun _ => ⟨rfl, by rfl⟩

theorem MatchesRow.wrEs (b : Bank) (w : Word) : Statement (.wrEs b w) :=
  fun _ => ⟨rfl, (by decide : ∀ b : Bank,
    packHeader ⟨true, .s32, BitVec.ofNat 12 (Config.offsets.reg32 (.es b))⟩ &&& 0xFFFB#16 = 0xA100#16) b⟩

theorem MatchesRow.rdEs (b : Bank) : Statement (.rdEs b) :=
  fun _ => ⟨rfl, by revert b; decide⟩

theorem MatchesRow.wrEc (b : Bank) (w : Word) : Statement (.wrEc b w) :=
  fun _ => ⟨rfl, (by decide : ∀ b : Bank,
    packHeader ⟨true, .s32, BitVec.ofNat 12 (Config.offsets.reg32 (.ec b))⟩ &&& 0xFFFB#16 = 0xA180#16) b⟩

theorem MatchesRow.rdEc (b : Bank) : Statement (.rdEc b) :=
  fun _ => ⟨rfl, by revert b; decide⟩

theorem MatchesRow.wrPs (b : Bank) (w : Word) : Statement (.wrPs b w) :=
  fun _ => ⟨rfl, (by decide : ∀ b : Bank,
    packHeader ⟨true, .s32, BitVec.ofNat 12 (Config.offsets.reg32 (.ps b))⟩ &&& 0xFFFB#16 = 0xA200#16) b⟩

theorem MatchesRow.rdPs (b : Bank) : Statement (.rdPs b) :=
  fun _ => ⟨rfl, by revert b; decide⟩

theorem MatchesRow.wrPc (b : Bank) (w : Word) : Statement (.wrPc b w) :=
  fun _ => ⟨rfl, (by decide : ∀ b : Bank,
    packHeader ⟨true, .s32, BitVec.ofNat 12 (Config.offsets.reg32 (.pc b))⟩ &&& 0xFFFB#16 = 0xA280#16) b⟩

theorem MatchesRow.rdPc (b : Bank) : Statement (.rdPc b) :=
  fun _ => ⟨rfl, by revert b; decide⟩

theorem MatchesRow.rdAf (b : Bank) : Statement (.rdAf b) :=
  fun _ => ⟨rfl, by revert b; decide⟩

theorem MatchesRow.wrAf (b : Bank) (w : Word) : Statement (.wrAf b w) :=
  fun _ => ⟨rfl, (by decide : ∀ b : Bank,
    packHeader ⟨true, .s32, BitVec.ofNat 12 (Config.offsets.reg32 (.af b))⟩ &&& 0xFFFB#16 = 0xA300#16) b⟩

theorem MatchesRow.wrPri (n : BitVec 6) (w : Byte) : Statement (.wrPri n w) :=
  fun h => ⟨rfl, (by decide : ∀ n : BitVec 6, decide (n.toNat ≤ 59) = true →
    packHeader ⟨true, .s8, BitVec.ofNat 12 (Config.offsets.entry n.toNat)⟩ &&& 0xFFC0#16 = 0x8400#16) n h⟩

theorem MatchesRow.rdPri (n : BitVec 6) : Statement (.rdPri n) :=
  fun h => ⟨rfl, by revert h; revert n; decide⟩

theorem MatchesRow.wrGcfg (w : Word) : Statement (.wrGcfg w) :=
  fun _ => ⟨rfl, (by decide :
    packHeader ⟨true, .s32, BitVec.ofNat 12 (Config.offsets.reg32 .gcfg)⟩ &&& 0xFFFF#16 = 0xAD0C#16)⟩

theorem MatchesRow.rdGcfg : Statement .rdGcfg :=
  fun _ => ⟨rfl, by rfl⟩

end Sys2Proof.Laws
end

