-- ==== Sys2Proof/Laws/Step.lean ====
section
/-! SUPPORT. Everything a step can be: an event, an instruction, a refusal or the end of the list. -/

namespace Sys2Proof.Machine

theorem step_of_nil {s : State} (h : s.todo = []) : step s = .fault .programEnded := by
  simp [step, fetch, h]

theorem step_of_event {s : State} {e : Event} {rest : List Input} (h : s.todo = .event e :: rest) :
    step s = execEvent e { s with todo := rest, idx := s.idx + 1 } := by
  simp [step, fetch, h]

theorem step_of_decoded {s : State} {x : Coded} {rest : List Input} {i : Instr} (h : s.todo = .master x :: rest)
    (hd : decode s.offsets x = .ok i) : step s = exec i { s with todo := rest, idx := s.idx + 1 } := by
  simp [step, fetch, h, hd]

theorem step_of_error {s : State} {x : Coded} {rest : List Input} {e : DecodeError} (h : s.todo = .master x :: rest)
    (hd : decode s.offsets x = .error e) : step s = .refused (.invalid e) := by
  simp [step, fetch, h, hd]

/-- Every step, said once. -/
theorem step_cases (s : State) :
    (s.todo = [] ∧ step s = .fault .programEnded) ∨
      (∃ e rest, s.todo = .event e :: rest ∧ nextEvent s = some e ∧ nextInstr s = none ∧
        step s = execEvent e { s with todo := rest, idx := s.idx + 1 }) ∨
      (∃ x rest i, s.todo = .master x :: rest ∧ decode s.offsets x = .ok i ∧ nextInstr s = some i ∧
        nextEvent s = none ∧ step s = exec i { s with todo := rest, idx := s.idx + 1 }) ∨
      (∃ x rest e, s.todo = .master x :: rest ∧ decode s.offsets x = .error e ∧ nextInstr s = none ∧
        nextEvent s = none ∧ step s = .refused (.invalid e)) := by
  cases h : s.todo with
  | nil => exact .inl ⟨rfl, step_of_nil h⟩
  | cons a rest =>
    cases a with
    | event e => exact .inr (.inl ⟨e, rest, rfl, by simp [nextEvent, h], by simp [nextInstr, h], step_of_event h⟩)
    | master x =>
      cases hd : decode s.offsets x with
      | ok i =>
        exact .inr (.inr (.inl ⟨x, rest, i, rfl, hd, by simp [nextInstr, h, hd], by simp [nextEvent, h],
          step_of_decoded h hd⟩))
      | error e =>
        exact .inr (.inr (.inr ⟨x, rest, e, rfl, hd, by simp [nextInstr, h, hd], by simp [nextEvent, h],
          step_of_error h hd⟩))

end Sys2Proof.Machine
end

