-- ==== Sys2Proof/Machine/LineNames.lean ====
section
/-! DEFINITION. The written names of the lines and of the grouping modes (R89, R94, R226). No rule depends on a name:
the meanings never read this file. -/

namespace Sys2Proof.Machine

/-- The names of the lines 0..59 (R226). Only RTC = 3 and USART1 = 37 are the document's; the other 58 are PRESUMED, the
spec marks them "from general knowledge, not in source" (log 28). -/
def lineNames : List String :=
  ["WWDG", "PVD", "TAMPER", "RTC", "FLASH", "RCC"] ++
  ["EXTI0", "EXTI1", "EXTI2", "EXTI3", "EXTI4", "DMA1_CH1"] ++
  ["DMA1_CH2", "DMA1_CH3", "DMA1_CH4", "DMA1_CH5", "DMA1_CH6", "DMA1_CH7"] ++
  ["ADC1_2", "USB_HP_CAN_TX", "USB_LP_CAN_RX0", "CAN_RX1", "CAN_SCE", "EXTI9_5"] ++
  ["TIM1_BRK", "TIM1_UP", "TIM1_TRG_COM", "TIM1_CC", "TIM2", "TIM3"] ++
  ["TIM4", "I2C1_EV", "I2C1_ER", "I2C2_EV", "I2C2_ER", "SPI1"] ++
  ["SPI2", "USART1", "USART2", "USART3", "EXTI15_10", "RTC_ALARM"] ++
  ["USB_WAKEUP", "TIM8_BRK", "TIM8_UP", "TIM8_TRG_COM", "TIM8_CC", "ADC3"] ++
  ["FSMC", "SDIO", "TIM5", "SPI3", "UART4", "UART5"] ++
  ["TIM6", "TIM7", "DMA2_CH1", "DMA2_CH2", "DMA2_CH3", "DMA2_CH4_5"]

/-- The line a written name stands for (R94). -/
def lineOfName (name : String) : Option Nat :=
  let i := lineNames.idxOf name
  if i < lineNames.length then some i else none

/-- The written name of a mode (R89, R94). -/
def modeName : GroupMode → String
  | .g4s0 => "G4S0"
  | .g3s1 => "G3S1"
  | .g2s2 => "G2S2"
  | .g1s3 => "G1S3"
  | .g0s4 => "G0S4"

/-- The selector a written mode name stands for (R94). -/
def selectorOfName (name : String) : Option Half :=
  (allModes.find? (fun m => modeName m == name)).map selectorOf

end Sys2Proof.Machine
end

