-- ==== Sys2Proof/Tests/Slice0.lean ====
section
/-! SUPPORT. Tests: ill-formed terms are refused, the spec's words decode as it lists them, single steps give the spec's
vectors (95_test_vectors.md, V1 to V10), and each statement's hypotheses are met by a concrete state. -/

namespace Sys2Proof.Tests

open Sys2Proof Sys2Proof.Machine

/-! ### Helpers -/

/-- The next state, where a step gives one. -/
def after : Result → Option State
  | .next t => some t
  | .fault _ => none
  | .refused _ => none

/-- The reason, where a step is refused. -/
def why : Result → Option Refusal
  | .next _ => none
  | .fault _ => none
  | .refused r => some r

/-- The flags in which only the lines of a list are 1, as a sum of powers of two. -/
def lines (l : List Nat) : Flags := BitVec.ofNat 60 (l.map (fun n => 2 ^ n)).sum

/-- A block whose flags are given by the lines they hold 1 for, with `MODE` the value `m` and priorities 0x00. -/
def block (m : Option (BitVec 3)) (en pend act : List Nat) : State :=
  { en := lines en, pend := lines pend, act := lines act, pri := Vector.replicate 60 0#8, mode := m,
    offsets := Config.offsets, todo := [], idx := 0, resp := .none, made := [] }

/-- The all-zero block in mode 3 (G4S0). -/
def zero : State := block (some 3#3) [] [] []

/-- The steps to come of a state. -/
def withTodo (s : State) (l : List Input) : State := { s with todo := l }

/-- Offsets other than the defaults, the priority array at the very end of the 4096 bytes. -/
def otherOffsets : Offsets := { es := 0, ec := 8, ps := 16, pc := 24, af := 32, pri := 0xFC4, gcfg := 40 }

/-! ### WellFormed: each check refuses an ill-formed term -/

theorem test_wrPri_60_is_ill_formed : (Instr.wrPri 60#6 0#8).wellFormed = false := by decide
theorem test_rdPri_63_is_ill_formed : (Instr.rdPri 63#6).wellFormed = false := by decide
theorem test_wrPri_59_is_well_formed : (Instr.wrPri 59#6 0#8).wellFormed = true := by decide
theorem test_enable_255_is_well_formed : (Instr.enable 255#8).wellFormed = true := by decide
theorem test_default_offsets_are_well_formed : Config.offsets.wellFormed = true := by decide
theorem test_overlapping_offsets_are_refused :
    ({ Config.offsets with ec := 0x104 } : Offsets).wellFormed = false := by decide
theorem test_offsets_beyond_12_bits_are_refused :
    ({ Config.offsets with gcfg := 0xFFD } : Offsets).wellFormed = false := by decide

/-! ### Decoding: every constructor, words written out from R81, R82, R90 and R91 (V2, V5) -/

theorem test_decode_enable : decodeTableWord 32 0b00000000000000000000000000100101 = some (.enable 37#8) := by decide
theorem test_decode_disable : decodeTableWord 32 0b00010000000000000000000000011111 = some (.disable 31#8) := by decide
theorem test_decode_setpend : decodeTableWord 32 0b00100000000000000000000000000011 = some (.setpend 3#8) := by decide
theorem test_decode_clrpend : decodeTableWord 32 0b00110000000000000000000000000011 = some (.clrpend 3#8) := by decide
theorem test_decode_isactive : decodeTableWord 32 0b01000000000000000000000000100101 = some (.isactive 37#8) := by decide
theorem test_decode_setpri :
    decodeTableWord 32 0b01010000010100000000000000100101 = some (.setpri 37#8 0x50#8) := by decide
theorem test_decode_setgrp :
    decodeTableWord 32 0b01100000000000001101111010101101 = some (.setgrp 0xDEAD#16) := by decide
theorem test_decode_init : decodeTableWord 32 0b01110000000000000000000000000000 = some .init := by decide
theorem test_decode_wrEs :
    decodeTableWord 48 (0b1010000100000100 + 2 ^ 16 * 0x00000020) = some (.wrEs 1 0x20#32) := by decide
theorem test_decode_rdEs : decodeTableWord 16 0b0010000100000000 = some (.rdEs 0) := by decide
theorem test_decode_wrEc :
    decodeTableWord 48 (0b1010000110000100 + 2 ^ 16 * 0xF0000001) = some (.wrEc 1 0xF0000001#32) := by decide
theorem test_decode_rdEc : decodeTableWord 16 0b0010000110000000 = some (.rdEc 0) := by decide
theorem test_decode_wrPs :
    decodeTableWord 48 (0b1010001000000000 + 2 ^ 16 * 0x00000009) = some (.wrPs 0 9#32) := by decide
theorem test_decode_rdPs : decodeTableWord 16 0b0010001000000100 = some (.rdPs 1) := by decide
theorem test_decode_wrPc :
    decodeTableWord 48 (0b1010001010000000 + 2 ^ 16 * 0x00000001) = some (.wrPc 0 1#32) := by decide
theorem test_decode_rdPc : decodeTableWord 16 0b0010001010000000 = some (.rdPc 0) := by decide
theorem test_decode_rdAf : decodeTableWord 16 0b0010001100000100 = some (.rdAf 1) := by decide
theorem test_decode_wrAf :
    decodeTableWord 48 (0b1010001100000100 + 2 ^ 16 * 0xFFFFFFFF) = some (.wrAf 1 0xFFFFFFFF#32) := by decide
theorem test_decode_wrPri :
    decodeTableWord 48 (0b1000010000111011 + 2 ^ 16 * 0x000000A7) = some (.wrPri 59#6 0xA7#8) := by decide
theorem test_decode_rdPri : decodeTableWord 16 0b0000010000111011 = some (.rdPri 59#6) := by decide
theorem test_decode_wrGcfg :
    decodeTableWord 48 (0b1010110100001100 + 2 ^ 16 * 0x05FA0500) = some (.wrGcfg 0x05FA0500#32) := by decide
theorem test_decode_rdGcfg : decodeTableWord 16 0b0010110100001100 = some .rdGcfg := by decide

/-- V2's well-formed words with operands that are rejected only when they run (R95). -/
theorem test_decode_operands_are_not_checked :
    decodeTableWord 32 0x000000FF = some (.enable 255#8) ∧ decodeTableWord 32 0x60000000 = some (.setgrp 0#16) := by decide

/-- V2's invalid words, each under its reason. -/
theorem test_decode_reserved_command_words :
    decodeCommand 0x70000001#32 = .error .reservedBits ∧ decodeCommand 0x00000100#32 = .error .reservedBits ∧
      decodeCommand 0x01000025#32 = .error .reservedBits ∧ decodeCommand 0x50500125#32 = .error .reservedBits ∧
      decodeCommand 0x60010300#32 = .error .reservedBits ∧ decodeCommand 0x80000000#32 = .error .reservedOp ∧
      decodeCommand 0xFFFFFFFF#32 = .error .reservedOp := ⟨rfl, rfl, rfl, rfl, rfl, rfl, rfl⟩

/-- Headers R91 does not list: bit 14, size code 11, a 16-bit access, a 32-bit access of `PRI`, an 8-bit access of
`GCFG`, a 32-bit access off a register's offset, entry 60, and an offset with no register. -/
theorem test_decode_reserved_headers :
    decodeBus Config.offsets 0xE100#16 0#32 = .error .headerBit14 ∧
      decodeBus Config.offsets 0xB100#16 0#32 = .error .reservedSize ∧
      decodeBus Config.offsets 0x9100#16 0#32 = .error .wrongWidth ∧
      decodeBus Config.offsets 0xA400#16 0#32 = .error .wrongWidth ∧
      decodeBus Config.offsets 0x8D0C#16 0#32 = .error .wrongWidth ∧
      decodeBus Config.offsets 0xA102#16 0#32 = .error .misaligned ∧
      decodeBus Config.offsets 0x843C#16 0#32 = .error .unmapped ∧
      decodeBus Config.offsets 0x2000#16 0#32 = .error .unmapped := ⟨rfl, rfl, rfl, rfl, rfl, rfl, rfl, rfl⟩

/-! ### Operands (V1, V9, the table of R165, V5's rows of `GCFG` with the key 0x05FA) -/

theorem test_check_line : checkLine 59#8 = some 59 ∧ checkLine 60#8 = none ∧ checkLine 255#8 = none := by decide
theorem test_error_codes : errorCode (.invalidLine 60#8) = 1#2 ∧ errorCode (.invalidPriorityValue 0#8) = 2#2 ∧
    errorCode (.invalidGroupingMode 0xDEAD#16) = 3#2 ∧ errorInfo (.invalidGroupingMode 0xDEAD#16) = 0xDEAD := by decide
theorem test_unlock_absent_or_tampered_key : unlockNext 0x05FA#16 0x00000500#32 (some 3#3) = some (some 3#3) ∧
    unlockNext 0x05FA#16 0x05FB0500#32 (some 3#3) = some (some 3#3) ∧
    unlockNext 0x05FA#16 0x12340704#32 (some 3#3) = some (some 3#3) := by decide
theorem test_unlock_right_key : unlockNext 0x05FA#16 0x05FA0500#32 (some 3#3) = some (some 5#3) ∧
    unlockNext 0x05FA#16 0x05FA0000#32 (some 3#3) = some (some 0#3) ∧
    unlockNext 0x05FA#16 0x05FA0704#32 (some 3#3) = none ∧
    unlockNext 0x05FA#16 0x05FA8700#32 (some 3#3) = none := by decide
theorem test_line_names : lineOfName "RTC" = some 3 ∧ lineOfName "USART1" = some 37 ∧ lineNames.length = 60 ∧
    selectorOfName "G2S2" = some 0x0500#16 := by decide

/-! ### One step of each instruction (V3 to V5, V9) -/

theorem test_enable_31_keeps_line_0 : (after (exec (.enable 31#8) (block none [0] [] []))).map (·.en) =
    some (lines [0, 31]) := by decide
theorem test_enable_60_is_rejected : (after (exec (.enable 60#8) zero)).map (fun t => (t.en, t.resp, t.made)) =
    some (0#60, .rejected (.invalidLine 60#8), []) := by decide
theorem test_disable_32_keeps_line_31 :
    (after (exec (.disable 32#8) (block none [31, 32] [] []))).map (fun t => (t.en, t.made)) =
      some (lines [31], [.wr32 (.ec 1) 0x00000001#32]) := by decide
theorem test_disable_keeps_pending : (after (exec (.disable 5#8) (block none [5] [5] []))).map (·.pend) =
    some (lines [5]) := by decide
theorem test_setpend_37 : (after (exec (.setpend 37#8) zero)).map (fun t => (t.en, t.pend, t.act, t.made)) =
    some (0#60, lines [37], 0#60, [.wr32 (.ps 1) 0x00000020#32]) := by decide
theorem test_clrpend_keeps_active :
    (after (exec (.clrpend 37#8) (block none [] [37] [37]))).map (fun t => (t.pend, t.act, t.made)) =
      some (0#60, lines [37], [.wr32 (.pc 1) 0x00000020#32]) := by decide
theorem test_isactive_59 : (after (exec (.isactive 59#8) (block none [] [] [59]))).map (fun t => (t.resp, t.made)) =
    some (.bool true, [.rd32 (.af 1)]) := by decide
theorem test_isactive_32_is_not_line_31 : (after (exec (.isactive 32#8) (block none [] [] [31]))).map (·.resp) =
    some (.bool false) := by decide
theorem test_setpri_59 :
    (after (exec (.setpri 59#8 0x01#8) zero)).map (fun t => (t.prio 59, t.prio 58, t.made)) =
      some (0x01#8, 0x00#8, [.wr8 59 0x01#8]) := by decide
theorem test_setpri_60_is_rejected : (after (exec (.setpri 60#8 0x00#8) zero)).map (·.resp) =
    some (.rejected (.invalidLine 60#8)) := by decide
/-- V4, with the OPEN key in place of 0x05FA. -/
theorem test_setgrp_0700 : (after (exec (.setgrp 0x0700#16) zero)).map (fun t => (t.mode, t.made)) =
    some (some 7#3, [.wr32 .gcfg (Config.unlockKey ++ 0x0700#16)]) := by
  have h : exec (.setgrp 0x0700#16) zero = _ := execSetgrp_of_isSelector (.inr (.inr (.inr (.inr rfl)))) zero
  rw [h]; rfl
theorem test_setgrp_0301_is_rejected : (after (exec (.setgrp 0x0301#16) zero)).map (fun t => (t.mode, t.resp, t.made)) =
    some (some 3#3, .rejected (.invalidGroupingMode 0x0301#16), []) := by decide
/-- V4: INIT keeps every flag; its mode is the OPEN `INIT_MODE`. -/
theorem test_init_keeps_flags : (after (exec .init (block (some 7#3) [3] [3] []))).map (fun t => (t.en, t.pend)) =
    some (lines [3], lines [3]) := by
  have h : exec .init (block (some 7#3) [3] [3] []) = _ := writeStep_gword (isSelector_selectorOf Config.initMode) _
  rw [h]; rfl
theorem test_wrEs_bank_1_all_ones : (after (exec (.wrEs 1 0xFFFFFFFF#32) zero)).map (·.en) =
    some (0xFFFFFFF00000000#60) := by decide
theorem test_wrEs_zero_changes_nothing : (after (exec (.wrEs 0 0#32) (block none [7] [] []))).map (·.en) =
    some (lines [7]) := by decide
theorem test_rdEs_bank_1 : (after (exec (.rdEs 1) (block none [37] [] []))).map (·.resp) =
    some (.data32 0x00000020#32) := by decide
theorem test_wrEc_ignores_bits_28_to_31 :
    (after (exec (.wrEc 1 0xF0000001#32) { zero with en := 0xFFFFFFF00000000#60 })).map (·.en) =
      some (0xFFFFFFE00000000#60) := by decide
theorem test_rdEc_bank_0 : (after (exec (.rdEc 0) (block none [31] [] []))).map (·.resp) =
    some (.data32 0x80000000#32) := by decide
theorem test_wrPs : (after (exec (.wrPs 0 9#32) zero)).map (·.pend) = some (lines [0, 3]) := by decide
theorem test_rdPs : (after (exec (.rdPs 1) (block none [] [59] []))).map (·.resp) =
    some (.data32 0x08000000#32) := by decide
theorem test_wrPc : (after (exec (.wrPc 0 1#32) (block none [] [0, 3] []))).map (·.pend) = some (lines [3]) := by decide
theorem test_rdPc : (after (exec (.rdPc 0) (block none [] [3] []))).map (·.resp) =
    some (.data32 0x00000008#32) := by decide
theorem test_rdAf : (after (exec (.rdAf 1) (block none [] [] [37]))).map (·.resp) =
    some (.data32 0x00000020#32) := by decide
theorem test_wrAf_is_ignored :
    (after (exec (.wrAf 1 0xFFFFFFFF#32) (block none [] [] [37]))).map (fun t => (t.act, t.resp)) =
      some (lines [37], .done) := by decide
theorem test_wrPri : (after (exec (.wrPri 59#6 0xA7#8) zero)).map (fun t => (t.prio 59, t.prio 0)) =
    some (0xA7#8, 0x00#8) := by decide
theorem test_wrPri_60_is_refused : why (exec (.wrPri 60#6 0#8) zero) = some (.invalid .unmapped) := by decide
theorem test_rdPri : (after (exec (.rdPri 37#6) (zero.withPrio 37 0x50#8))).map (·.resp) =
    some (.data8 0x50#8) := by decide
theorem test_rdPri_63_is_refused : why (exec (.rdPri 63#6) zero) = some (.invalid .unmapped) := by decide
/-- V5's row of `0x05FA0704`, with the OPEN key. -/
theorem test_wrGcfg_right_key_not_clean :
    exec (.wrGcfg (Config.unlockKey ++ 0x0704#16)) zero = .refused .keyedWriteNotClean :=
  writeStep_gcfg_of_not_clean (extractLsb'_high_append _ _)
    (fun c => absurd ((extractLsb'_low_append Config.unlockKey 0x0704#16 0 8 (by decide)).symm.trans c.2) (by decide)) zero
theorem test_rdGcfg_without_a_mode : why (exec .rdGcfg (block none [] [] [])) = some .modeHasNoValue := by decide
/-- V5's row with `KEY_READ` OPEN. -/
theorem test_rdGcfg_mode_5 : (after (exec .rdGcfg (block (some 5#3) [] [] []))).map (·.resp) =
    some (.data32 (Config.keyRead ++ 0x0500#16)) := by
  have h : exec .rdGcfg (block (some 5#3) [] [] []) = _ :=
    readStep_of_value (s := block (some 5#3) [] [] []) (value32_gcfg_of_some (m := 5#3) rfl) .data32
  rw [h, gcfgRead_eq_append]; rfl

/-! ### The priority encoder and the events (V6 to V8) -/

theorem test_split_of_A7 : [grp .g4s0 0xA7#8, sub .g4s0 0xA7#8, grp .g3s1 0xA7#8, sub .g3s1 0xA7#8, grp .g2s2 0xA7#8,
    sub .g2s2 0xA7#8, grp .g1s3 0xA7#8, sub .g1s3 0xA7#8, grp .g0s4 0xA7#8, sub .g0s4 0xA7#8] =
      [10#8, 0#8, 5#8, 0#8, 2#8, 2#8, 1#8, 2#8, 0#8, 10#8] := by decide
theorem test_prienc : prienc .g4s0 15#8 0#8 = 0xF0#8 ∧ prienc .g3s1 7#8 1#8 = 0xF0#8 ∧ prienc .g2s2 3#8 0#8 = 0xC0#8 ∧
    prienc .g1s3 0#8 7#8 = 0x70#8 := by decide

/-- V7's states with the lines 3 and 37. -/
def twoLines (m : BitVec 3) (en pend act : List Nat) (p3 p37 : Byte) : State :=
  ((block (some m) en pend act).withPrio 3 p3).withPrio 37 p37

theorem test_winner_by_sub : (outputs (twoLines 5#3 [3, 37] [3, 37] [] 0x60#8 0x50#8)).map (·.irqLine) =
    some (some 37) := by decide
theorem test_winner_by_line_number : (outputs (twoLines 5#3 [3, 37] [3, 37] [] 0x5F#8 0x50#8)).map (·.irqLine) =
    some (some 3) := by decide
theorem test_winner_must_be_enabled : (outputs (twoLines 5#3 [37] [3, 37] [] 0x00#8 0xF0#8)).map (·.irqLine) =
    some (some 37) := by decide
theorem test_preemption_needs_a_lower_group :
    (outputs (twoLines 5#3 [3] [3] [37] 0x40#8 0x50#8)).map (·.irqValid) = some false ∧
    (outputs (twoLines 3#3 [3] [3] [37] 0x40#8 0x50#8)).map (·.irqValid) = some true := by decide
theorem test_outputs_in_mode_1 : outputs (twoLines 1#3 [3] [3] [] 0#8 0#8) = none := by decide

theorem test_irq_0 : (after (execIrq 0 zero)).map (·.pend) = some (lines [0]) := by decide
theorem test_take_5 : (after (execTake (block (some 3#3) [5] [5] []))).map (fun t => (t.en, t.pend, t.act)) =
    some (lines [5], 0#60, lines [5]) := by decide
theorem test_take_blocked : (after (execTake (block (some 3#3) [5] [5] [6]))).map (fun t => (t.pend, t.act, t.resp)) =
    some (lines [5], lines [6], .notEnabled) := by decide
theorem test_take_in_mode_2 : why (execTake (block (some 2#3) [5] [5] [])) = some .modeHasNoSplit := by decide
theorem test_ret_6 : (after (execRet 6 (block none [] [] [5, 6]))).map (·.act) = some (lines [5]) := by decide
theorem test_ret_5_not_active : (after (execRet 5 zero)).map (fun t => (t.act, t.resp)) =
    some (0#60, .notEnabled) := by decide

/-! ### The step -/

theorem test_step_of_a_placed_word :
    (after (step (State.withFetchWord zero 32 0x20000003))).map (fun t => (t.pend, t.idx, t.todo)) =
      some (lines [3], 1, []) := by decide
theorem test_step_of_a_placed_transaction :
    (after (step (State.withFetchWord zero 48 (0xA104 + 2 ^ 16 * 0x20)))).map (fun t => (t.en, t.idx, t.todo)) =
      some (lines [37], 1, []) := by decide
/-- The machine decodes with its own offsets: ES[1] stands at offset 4 of these, and nothing at 0x104. -/
theorem test_step_with_other_offsets :
    (after (step (withTodo { zero with offsets := otherOffsets } [.master (.bus 0xA004#16 0x20#32)]))).map (·.en) =
      some (lines [37]) ∧
    why (step (withTodo { zero with offsets := otherOffsets } [.master (.bus 0xA104#16 0x20#32)])) =
      some (.invalid .unmapped) := by decide
theorem test_step_of_an_event : (after (step (withTodo zero [.event (.irq 59)]))).map (fun t => (t.pend, t.idx)) =
    some (lines [59], 1) := by decide

/-! ### Witnesses: the hypotheses of each statement that has any, met by concrete values

Each theorem is named after the statement (and, where it has several clauses, the clause). -/

theorem witness_DecodeOfEncodeIsTheInstruction : otherOffsets.wellFormed = true ∧
    (Instr.wrPri 59#6 0xA7#8).wellFormed = true ∧ (Instr.setgrp 0xDEAD#16).wellFormed = true := by decide

theorem witness_EncodeOfDecodeIsTheWord : Config.offsets.wellFormed = true ∧
    decode Config.offsets (.command 0x500000FF#32) = .ok (.setpri 255#8 0#8) ∧
    decode Config.offsets (.bus 0x843B#16 0xFFFFFFA7#32) = .ok (.wrPri 59#6 0xA7#8) := ⟨by decide, rfl, rfl⟩

theorem witness_ReservedCommandWordsDecodeToNothing :
    (∃ i, decode Config.offsets (.command 0x600000FF#32) = .ok i) ∧
    ¬ ∃ i, decode Config.offsets (.command 0x60010300#32) = .ok i :=
  ⟨⟨.setgrp 0x00FF#16, rfl⟩, fun ⟨_, h⟩ => nomatch h⟩

theorem witness_StepRunsTheDecodedInstruction_master :
    (withTodo zero [.master (.command 37#32)]).todo = .master (.command 37#32) :: [] ∧
    decode (withTodo zero [.master (.command 37#32)]).offsets (.command 37#32) = .ok (.enable 37#8) ∧ (Instr.enable 37#8).wellFormed = true := ⟨rfl, rfl, rfl⟩
theorem witness_StepRunsTheDecodedInstruction_event :
    (withTodo zero [.event .take, .event (.irq 0)]).todo = .event .take :: [.event (.irq 0)] := rfl

theorem witness_StepTakesOneInputOff :
    ∃ t, step (withTodo zero [.master (.command 60#32), .event .take]) = .next t ∧ t.idx = 1 := ⟨_, rfl, rfl⟩

theorem witness_StopsAreExactlyTheSpecsRefusals_empty : zero.todo = [] := rfl
theorem witness_StopsAreExactlyTheSpecsRefusals_decode :
    decode Config.offsets (.command 0x80000000#32) = .error .reservedOp := rfl
theorem witness_StopsAreExactlyTheSpecsRefusals_key :
    nextInstr (withTodo zero [.master (.bus 0xAD0C#16 (Config.unlockKey ++ 0x0704#16))]) =
      some (.wrGcfg (Config.unlockKey ++ 0x0704#16)) := rfl
theorem witness_StopsAreExactlyTheSpecsRefusals_read :
    nextInstr (withTodo (block none [] [] []) [.master (.bus 0x2D0C#16 0#32)]) = some .rdGcfg ∧
    (block none [] [] []).mode = none := ⟨rfl, rfl⟩
theorem witness_StopsAreExactlyTheSpecsRefusals_take :
    nextEvent (withTodo (block (some 2#3) [] [] []) [.event .take]) = some .take ∧
    ¬ ModeDefined (block (some 2#3) [] [] []) :=
  ⟨rfl, fun ⟨_, h, hm⟩ => by cases h; exact absurd hm (by decide)⟩

/-- For the five operations on a line and SETPRI: the two clauses at the ends of their ranges. -/
theorem witness_line_operands : (0#8).toNat ≤ 59 ∧ (59#8).toNat ≤ 59 ∧ 60 ≤ (60#8).toNat ∧ 60 ≤ (255#8).toNat ∧
    (59#8).toNat = (59 : Line).val := by decide
theorem witness_EnableSetsOnlyItsLine : ∃ t, exec (.enable 59#8) zero = .next t ∧ t.enabled 59 = true := ⟨_, rfl, by decide⟩
theorem witness_DisableClearsOnlyItsLine :
    ∃ t, exec (.disable 59#8) (block none [59] [] []) = .next t ∧ t.enabled 59 = false := ⟨_, rfl, by decide⟩
theorem witness_SetPendingSetsOnlyItsLine :
    ∃ t, exec (.setpend 59#8) zero = .next t ∧ t.pending 59 = true := ⟨_, rfl, by decide⟩
theorem witness_ClearPendingClearsOnlyItsLine :
    ∃ t, exec (.clrpend 59#8) (block none [] [59] []) = .next t ∧ t.pending 59 = false := ⟨_, rfl, by decide⟩
theorem witness_IsActiveReturnsTheActiveFlag : ∃ t, exec (.isactive 0#8) (block none [] [] [0]) = .next t ∧
    t.resp = .bool true := ⟨_, rfl, by decide⟩
theorem witness_SetPriorityStoresTheWholeByte : ∃ t, exec (.setpri 0#8 0xFF#8) zero = .next t ∧ t.prio 0 = 0xFF#8 :=
  ⟨_, rfl, by decide⟩

theorem witness_SetGroupingStoresTheMode : IsSelector 0x0300#16 ∧ IsSelector 0x0700#16 ∧ ¬ IsSelector 0x0301#16 ∧
    ¬ IsSelector 0x0200#16 ∧ ¬ IsSelector 0x0800#16 :=
  ⟨.inl rfl, .inr (.inr (.inr (.inr rfl))), by unfold IsSelector; decide, by unfold IsSelector; decide,
    by unfold IsSelector; decide⟩

theorem witness_OperationIsItsOneTransaction : (Instr.setpri 59#8 0xA7#8).isOperation = true ∧
    ∃ t, exec (.setpri 59#8 0xA7#8) zero = .next t ∧ t.resp = .done ∧ t.made = [.wr8 59 0xA7#8] :=
  ⟨rfl, _, rfl, rfl, rfl⟩
theorem witness_OperationIsItsOneTransaction_isactive : (Instr.isactive 31#8).isOperation = true ∧
    ∃ t, exec (.isactive 31#8) zero = .next t ∧ t.resp = .bool false ∧ t.made = [.rd32 (.af 0)] :=
  ⟨rfl, _, rfl, rfl, rfl⟩

theorem witness_RejectedOperationHasNoEffect_line :
    ∃ t, exec (.setpri 60#8 0#8) zero = .next t ∧ t.resp = .rejected (.invalidLine 60#8) := ⟨_, rfl, rfl⟩
theorem witness_RejectedOperationHasNoEffect_selector :
    ∃ t, exec (.setgrp 0xDEAD#16) zero = .next t ∧ t.resp = .rejected (.invalidGroupingMode 0xDEAD#16) := ⟨_, rfl, rfl⟩

/-- For the four bank writes: a line named at each bank's ends, and lines not named. -/
theorem witness_bank_writes : Names 0 0x80000000#32 31 ∧ Names 1 0x00000001#32 32 ∧ Names 1 0xF8000000#32 59 ∧
    ¬ Names 0 0x00000001#32 32 ∧ ¬ Names 1 0xF0000000#32 59 := by unfold Names; decide

theorem witness_WritePriorityEntry : (59#6).toNat ≤ 59 ∧ (59#6).toNat = (59 : Line).val ∧ (0#6).toNat = (0 : Line).val := by
  decide
theorem witness_ReadPriorityEntry : (59#6).toNat = (59 : Line).val ∧ (59#8).toNat = (59 : Line).val ∧
    ∃ t, exec (.setpri 59#8 0xA7#8) zero = .next t := ⟨rfl, rfl, _, rfl⟩
theorem witness_EntryNumbersAbove59AreRefused : 60 ≤ (60#6).toNat ∧ 60 ≤ (63#6).toNat := by decide

theorem not_key_ne (k : Half) : ~~~k ≠ k := by
  intro h
  have := congrArg (fun x : Half => x.getLsbD 0) h
  simp at this

theorem witness_GroupingWriteObeysTheKey_wrong :
    (~~~Config.unlockKey ++ 0x0704#16 : Word).extractLsb' 16 16 ≠ Config.unlockKey := by
  rw [extractLsb'_high_append]; exact not_key_ne _
theorem witness_GroupingWriteObeysTheKey_right (v : Half) :
    (Config.unlockKey ++ v : Word).extractLsb' 16 16 = Config.unlockKey := extractLsb'_high_append _ _
theorem witness_GroupingWriteObeysTheKey_clean : IsClean (Config.unlockKey ++ 0x0000#16) ∧
    IsClean (Config.unlockKey ++ 0x0700#16) :=
  ⟨⟨extractLsb'_low_append _ _ 11 5 (by decide), extractLsb'_low_append _ _ 0 8 (by decide)⟩,
    ⟨extractLsb'_low_append _ _ 11 5 (by decide), extractLsb'_low_append _ _ 0 8 (by decide)⟩⟩
theorem witness_GroupingWriteObeysTheKey_not_clean : ¬ IsClean (Config.unlockKey ++ 0x0701#16) ∧
    ¬ IsClean (Config.unlockKey ++ 0x0F00#16) :=
  ⟨fun c => absurd ((extractLsb'_low_append Config.unlockKey 0x0701#16 0 8 (by decide)).symm.trans c.2) (by decide),
    fun c => absurd ((extractLsb'_low_append Config.unlockKey 0x0F00#16 11 5 (by decide)).symm.trans c.1) (by decide)⟩

theorem witness_GroupingReadShowsTheMode : (block (some 0#3) [] [] []).mode = some 0#3 ∧
    (block (some 7#3) [] [] []).mode = some 7#3 ∧ (block none [] [] []).mode = none := ⟨rfl, rfl, rfl⟩

theorem witness_NoWriteLeavesTheRegisterUnlocked_right :
    (~~~Config.unlockKey ++ 0x0500#16 : Word).extractLsb' 16 16 ≠ Config.unlockKey ∧
    ∃ t, exec (.wrGcfg (Config.unlockKey ++ 0x0700#16)) zero = .next t := by
  refine ⟨?_, _,
    writeStep_gcfg_of_clean (extractLsb'_high_append _ _) witness_GroupingWriteObeysTheKey_clean.2 zero⟩
  rw [extractLsb'_high_append]; exact not_key_ne _
theorem witness_NoWriteLeavesTheRegisterUnlocked_wrong :
    ∃ t, exec (.wrGcfg (~~~Config.unlockKey ++ 0x0704#16)) zero = .next t :=
  ⟨_, writeStep_gcfg_of_wrong_key witness_GroupingWriteObeysTheKey_wrong zero⟩

theorem witness_BankWritesAreIdempotent : Instr.wrPc ∈ [Instr.wrEs, Instr.wrEc, Instr.wrPs, Instr.wrPc] := by simp

theorem witness_NoHiddenStateInInstructions :
    SameBlock zero { withTodo zero [.event .take] with idx := 9, resp := .bool true, made := [.rd32 .gcfg] } ∧
    ∃ t, exec (.enable 0#8) zero = .next t := ⟨⟨rfl, rfl, rfl, rfl, rfl⟩, _, rfl⟩

theorem witness_OnlyEnableAccessesChangeEnable :
    ∃ t, step (withTodo zero [.master (.bus 0xA104#16 0x08000000#32)]) = .next t ∧ t.enabled 59 ≠ zero.enabled 59 :=
  ⟨_, rfl, by decide⟩
theorem witness_OnlyEnableAccessesChangeEnable_cleared :
    ∃ t, step (withTodo (block none [5] [] []) [.master (.command 0x10000005#32)]) = .next t ∧
      t.enabled 5 ≠ (block none [5] [] []).enabled 5 := ⟨_, rfl, by decide⟩
theorem witness_OnlyPendingAccessesAndEventsChangePending :
    ∃ t, step (withTodo zero [.event (.irq 59)]) = .next t ∧ t.pending 59 ≠ zero.pending 59 := ⟨_, rfl, by decide⟩
theorem witness_OnlyPendingAccessesAndEventsChangePending_take :
    ∃ t, step (withTodo (block (some 3#3) [5] [5] []) [.event .take]) = .next t ∧
      t.pending 5 ≠ (block (some 3#3) [5] [5] []).pending 5 := ⟨_, rfl, by decide⟩
theorem witness_OnlyTakeAndRetChangeActive_take :
    ∃ t, step (withTodo (block (some 3#3) [5] [5] []) [.event .take]) = .next t ∧
      t.active 5 ≠ (block (some 3#3) [5] [5] []).active 5 := ⟨_, rfl, by decide⟩
theorem witness_OnlyTakeAndRetChangeActive_ret :
    ∃ t, step (withTodo (block none [] [] [6]) [.event (.ret 6)]) = .next t ∧
      t.active 6 ≠ (block none [] [] [6]).active 6 := ⟨_, rfl, by decide⟩
theorem witness_OnlyPriorityWritesChangePriorities :
    ∃ t, step (withTodo zero [.master (.command 0x50500025#32)]) = .next t ∧ t.prio 37 ≠ zero.prio 37 :=
  ⟨_, rfl, by decide⟩
theorem witness_OnlyPriorityWritesChangePriorities_raw :
    ∃ t, step (withTodo zero [.master (.bus 0x843B#16 0xA7#32)]) = .next t ∧ t.prio 59 ≠ zero.prio 59 :=
  ⟨_, rfl, by decide⟩

/-- The step of SETGRP 0x0700 in a state with that command word next. -/
theorem step_setgrp_0700 (s : State) : step (withTodo s [.master (.command 0x60000700#32)]) =
    .next { s with todo := [], idx := s.idx + 1, mode := some 7#3, resp := .done,
                   made := [.wr32 .gcfg (Config.unlockKey ++ 0x0700#16)] } :=
  (step_of_decoded (i := .setgrp 0x0700#16) rfl rfl).trans
    (execSetgrp_of_isSelector (.inr (.inr (.inr (.inr rfl)))) _)

theorem witness_OnlyKeyedWritesChangeMode :
    ∃ t, step (withTodo zero [.master (.command 0x60000700#32)]) = .next t ∧ t.mode ≠ zero.mode :=
  ⟨_, step_setgrp_0700 zero, by decide⟩
theorem witness_OnlyKeyedWritesChangeMode_raw :
    ∃ t, step (withTodo zero [.master (.bus 0xAD0C#16 (Config.unlockKey ++ 0x0000#16))]) = .next t ∧
      t.mode ≠ zero.mode := by
  refine ⟨_, (step_of_decoded (i := .wrGcfg (Config.unlockKey ++ 0x0000#16)) rfl rfl).trans
    (writeStep_gcfg_of_clean (extractLsb'_high_append _ _) witness_GroupingWriteObeysTheKey_clean.1 _), ?_⟩
  rw [extractLsb'_low_append _ _ 8 3 (by decide)]
  decide

theorem witness_ModeNeverReturnsToNoValue : zero.mode.isSome = true ∧
    ∃ t, step (withTodo zero [.master (.command 0x60000700#32)]) = .next t := ⟨rfl, _, step_setgrp_0700 zero⟩
theorem witness_ModeStaysDefinedWithoutRawGroupingWrites :
    ModeGuarded (withTodo zero [.master (.command 0x60000700#32)]) ∧
    ∃ t, step (withTodo zero [.master (.command 0x60000700#32)]) = .next t := by
  refine ⟨⟨⟨3#3, rfl, by decide⟩, fun x hx w => ?_⟩, _, step_setgrp_0700 zero⟩
  simp only [withTodo, List.mem_singleton, Input.master.injEq] at hx
  subst hx
  exact fun h => nomatch h
theorem witness_NothingIsActiveWithoutTake : NeverTaken (withTodo zero [.event (.irq 3)]) ∧
    ∃ t, step (withTodo zero [.event (.irq 3)]) = .next t :=
  ⟨⟨fun i => by revert i; decide, by decide⟩, _, rfl⟩
theorem witness_EveryStepIsAccountedFor :
    Accounted { withTodo (block none [] [] []) [.master (.command 60#32)] with resp := .data8 0#8, made := [.rd8 59] } ∧
    ∃ t, step { withTodo (block none [] [] []) [.master (.command 60#32)] with resp := .data8 0#8, made := [.rd8 59] } =
      .next t :=
  ⟨⟨⟨59, rfl⟩, by decide, fun a h => by rw [List.mem_singleton] at h; subst h; rfl⟩, _, rfl⟩

theorem witness_OffsetsAreFixedAndStayDisjoint : otherOffsets.wellFormed = true ∧
    ∃ t, step (withTodo { zero with offsets := otherOffsets } [.master (.bus 0xA004#16 0x20#32)]) = .next t :=
  ⟨by decide, _, rfl⟩

theorem witness_ComposedPriorityByteSplitsBack :
    (3#8).toNat < 2 ^ groupBits .g2s2 ∧ (3#8).toNat < 2 ^ subBits .g2s2 ∧ (15#8).toNat < 2 ^ groupBits .g4s0 ∧
    (0#8).toNat < 2 ^ subBits .g4s0 ∧ (0#8).toNat < 2 ^ groupBits .g0s4 ∧ (15#8).toNat < 2 ^ subBits .g0s4 := by decide

theorem witness_UrgencyIsAStrictTotalOrder :
    moreUrgent .g2s2 (twoLines 5#3 [] [] [] 0x40#8 0x50#8) 3 37 = true ∧
    moreUrgent .g2s2 (twoLines 5#3 [] [] [] 0x40#8 0x50#8) 0 3 = true ∧ (3 : Line) ≠ 37 := by decide

theorem witness_LowPriorityBitsDoNotMatter :
    let s := twoLines 3#3 [3] [3] [37] 0x4F#8 0x50#8
    let s' := twoLines 3#3 [3] [3] [37] 0x40#8 0x50#8
    s.en = s'.en ∧ s.pend = s'.pend ∧ s.act = s'.act ∧ s.mode = s'.mode ∧ s.prio 3 ≠ s'.prio 3 ∧
      (∀ i : Line, (s.prio i).extractLsb' 4 4 = (s'.prio i).extractLsb' 4 4) ∧ ∃ t, execTake s = .next t :=
  ⟨rfl, rfl, rfl, rfl, by decide, by decide, _, rfl⟩

theorem witness_OutputsFollowTheState : (twoLines 5#3 [3] [3] [] 0#8 0#8).mode = some (modeBits .g2s2) ∧
    ∃ out, outputs (twoLines 5#3 [3] [3] [] 0#8 0#8) = some out := ⟨rfl, _, rfl⟩
theorem witness_NothingPreemptsItselfOrWithoutGroups :
    winner .g4s0 (twoLines 3#3 [3] [3] [3] 0x20#8 0#8) = some 3 ∧
    (twoLines 3#3 [3] [3] [3] 0x20#8 0#8).active 3 = true := by decide

theorem witness_TakeDeliversTheWinner_undefined :
    ¬ ModeDefined (block none [] [] []) ∧ ¬ ModeDefined (block (some 0#3) [] [] []) :=
  ⟨fun ⟨_, h, _⟩ => (by cases h), fun ⟨_, h, hm⟩ => (by cases h; exact absurd hm (by decide))⟩
theorem witness_TakeDeliversTheWinner_enabled :
    (twoLines 3#3 [3] [3] [37] 0x40#8 0x50#8).mode = some (modeBits .g4s0) ∧
    winner .g4s0 (twoLines 3#3 [3] [3] [37] 0x40#8 0x50#8) = some 3 ∧
    ∀ j : Line, (twoLines 3#3 [3] [3] [37] 0x40#8 0x50#8).active j = true →
      (grp .g4s0 ((twoLines 3#3 [3] [3] [37] 0x40#8 0x50#8).prio 3)).toNat <
        (grp .g4s0 ((twoLines 3#3 [3] [3] [37] 0x40#8 0x50#8).prio j)).toNat := by decide
theorem witness_TakeDeliversTheWinner_not_enabled :
    (twoLines 7#3 [3] [3] [37] 0x00#8 0xF0#8).mode = some (modeBits .g0s4) ∧
    preemptOk .g0s4 (twoLines 7#3 [3] [3] [37] 0x00#8 0xF0#8) = false ∧ preemptOk .g0s4 zero = false := by decide

theorem witness_SignalAndReturnChangeOneFlag :
    (block none [] [] [59]).active 59 = true ∧ (block none [] [] [59]).active 0 = false := by decide

theorem witness_MissizedAccessesAreRefused : otherOffsets.wellFormed = true ∧
    decode otherOffsets (.bus 0x0FFF#16 0#32) = .ok (.rdPri 59#6) ∧
    decode otherOffsets (.bus 0x1FFF#16 0#32) = .error .wrongWidth := ⟨by decide, rfl, rfl⟩

end Sys2Proof.Tests
end

/-! SUPPORT. The operations on a line (40_line_ops.md): the words of format L through the decoder, the effect of the
mask of a line on its bank, and what each operation answers. -/

namespace Sys2Proof.LineOps

open Sys2Proof.Machine

/-! ### Command words of format L (R81, R82) -/

/-- An operation code with a line in the low byte is the encoder's word of format L. -/
theorem command_or_line (op : BitVec 4) (line : Byte) :
    Coded.command ((op ++ 0#28 : Word) ||| line.setWidth 32) = encodeL op line := by
  have hop : (op ++ 0#28 : Word) = ((op ++ 0#20) ++ 0#8 : BitVec (24 + 8)) := by
    revert op; decide
  have hline : line.setWidth 32 = (0#24 ++ line : BitVec (24 + 8)) :=
    BitVec.setWidth_eq_append (by decide)
  have hor : ((op ++ 0#20) ++ 0#8 : BitVec (24 + 8)) ||| (0#24 ++ line) = (op ++ 0#20) ++ line := by
    rw [BitVec.or_append, BitVec.or_zero, BitVec.zero_or]
  rw [hop, hline]
  exact congrArg Coded.command hor

/-- If an operation code selects `decodeL mk`, the encoder's word of format L with that code decodes to `mk line`. -/
theorem decode_encodeL (o : Offsets) {op : BitVec 4} {mk : Byte → Instr}
    (selects : ∀ w : Word, w.extractLsb' 28 4 = op → decodeCommand w = decodeL mk w) (line : Byte) :
    decode o (encodeL op line) = .ok (mk line) := by
  have hop : (op ++ 0#20 ++ line : BitVec (24 + 8)).extractLsb' 28 4 = op := by
    rw [BitVec.extractLsb'_append_eq_of_le (by decide)]
    exact BitVec.extractLsb'_append_eq_left
  have hzero : (op ++ 0#20 ++ line : BitVec (24 + 8)).extractLsb' 8 20 = 0#20 := by
    rw [BitVec.extractLsb'_append_eq_of_le (by decide)]
    exact BitVec.extractLsb'_append_eq_right
  have hline : (op ++ 0#20 ++ line : BitVec (24 + 8)).extractLsb' 0 8 = line := BitVec.extractLsb'_append_eq_right
  calc decode o (encodeL op line) = decodeL mk (op ++ 0#20 ++ line) := selects _ hop
    _ = .ok (mk line) := (if_pos hzero).trans (congrArg (fun l => Except.ok (mk l)) hline)

/-- The same for a word as the rules write it, the operation's match value `c` with the line in its low byte. -/
theorem decode_command_or_line (o : Offsets) {c : Word} {op : BitVec 4} {mk : Byte → Instr} (hc : c = op ++ 0#28)
    (selects : ∀ w : Word, w.extractLsb' 28 4 = op → decodeCommand w = decodeL mk w) (line : Byte) :
    decode o (.command (c ||| line.setWidth 32)) = .ok (mk line) := by
  rw [hc, command_or_line, decode_encodeL o selects]

theorem decodeCommand_enable (w : Word) (h : w.extractLsb' 28 4 = 0#4) : decodeCommand w = decodeL .enable w := by
  simp [decodeCommand, h]

theorem decodeCommand_setpend (w : Word) (h : w.extractLsb' 28 4 = 2#4) : decodeCommand w = decodeL .setpend w := by
  simp [decodeCommand, h]

theorem decodeCommand_clrpend (w : Word) (h : w.extractLsb' 28 4 = 3#4) : decodeCommand w = decodeL .clrpend w := by
  simp [decodeCommand, h]

theorem decodeCommand_isactive (w : Word) (h : w.extractLsb' 28 4 = 4#4) : decodeCommand w = decodeL .isactive w := by
  simp [decodeCommand, h]

/-! ### A line's own bit of its bank (R84, R86) -/

/-- Write-1-to-set with the mask of a line sets the flag of that line alone (R57). -/
theorem flag_setBank_maskOf (f : Flags) (n i : Line) :
    flag (setBank f (lineBank n) (maskOf n.val)) i = if i.val = n.val then true else flag f i := by
  split
  next h => exact flag_setBank_of_names ((names_maskOf n i).2 (Fin.ext h))
  next h => exact flag_setBank_of_not_names fun hn => h (congrArg Fin.val ((names_maskOf n i).1 hn))

/-- Write-1-to-clear with the mask of a line clears the flag of that line alone (R57). -/
theorem flag_clearBank_maskOf (f : Flags) (n i : Line) :
    flag (clearBank f (lineBank n) (maskOf n.val)) i = if i.val = n.val then false else flag f i := by
  split
  next h => exact flag_clearBank_of_names ((names_maskOf n i).2 (Fin.ext h))
  next h => exact flag_clearBank_of_not_names fun hn => h (congrArg Fin.val ((names_maskOf n i).1 hn))

/-- The view of a line's bank holds the line's flag at the line's bit position (R30). -/
theorem getLsbD_bankView_bitposOf (f : Flags) (i : Line) :
    (bankView f (lineBank i)).getLsbD (bitposOf i.val) = flag f i :=
  (showsBank_bankView f (lineBank i)).1 i rfl

/-- A line operand of 0..59 names a line (R85). -/
theorem exists_line_of_le {line : Byte} (h : line.toNat ≤ 59) : ∃ n : Line, line.toNat = n.val :=
  ⟨⟨line.toNat, by omega⟩, rfl⟩

/-! ### Candidates (R193) -/

theorem candidate_of_enabled {s : State} {i : Line} (h : s.enabled i = true) : candidate s i = s.pending i := by
  rw [candidate, h, Bool.true_and]

theorem candidate_of_pending {s : State} {i : Line} (h : s.pending i = true) : candidate s i = s.enabled i := by
  rw [candidate, h, Bool.and_true]

theorem candidate_of_not_pending {s : State} {i : Line} (h : s.pending i = false) : candidate s i = false := by
  rw [candidate, h, Bool.and_false]

/-! ### What each operation answers on a line that exists (R111, R113 to R115) -/

theorem exec_enable (line : Byte) (s : State) : exec (.enable line) s =
    onLine line (fun i => writeStep (.es (lineBank i)) (maskOf i.val)) s := rfl

theorem exec_setpend (line : Byte) (s : State) : exec (.setpend line) s =
    onLine line (fun i => writeStep (.ps (lineBank i)) (maskOf i.val)) s := rfl

theorem exec_clrpend (line : Byte) (s : State) : exec (.clrpend line) s =
    onLine line (fun i => writeStep (.pc (lineBank i)) (maskOf i.val)) s := rfl

theorem exec_isactive (line : Byte) (s : State) : exec (.isactive line) s =
    onLine line (fun i => readStep (.af (lineBank i)) (fun v => .bool (v.getLsbD (bitposOf i.val)))) s := rfl

theorem exec_enable_of_line {line : Byte} {n : Line} (h : line.toNat = n.val) (s : State) :
    exec (.enable line) s = .next { s with en := setBank s.en (lineBank n) (maskOf n.val), resp := .done,
                                           made := [.wr32 (.es (lineBank n)) (maskOf n.val)] } := by
  rw [exec_enable, onLine_of_line h, writeStep_es]

theorem exec_setpend_of_line {line : Byte} {n : Line} (h : line.toNat = n.val) (s : State) :
    exec (.setpend line) s = .next { s with pend := setBank s.pend (lineBank n) (maskOf n.val), resp := .done,
                                            made := [.wr32 (.ps (lineBank n)) (maskOf n.val)] } := by
  rw [exec_setpend, onLine_of_line h, writeStep_ps]

theorem exec_clrpend_of_line {line : Byte} {n : Line} (h : line.toNat = n.val) (s : State) :
    exec (.clrpend line) s = .next { s with pend := clearBank s.pend (lineBank n) (maskOf n.val), resp := .done,
                                            made := [.wr32 (.pc (lineBank n)) (maskOf n.val)] } := by
  rw [exec_clrpend, onLine_of_line h, writeStep_pc]

theorem exec_isactive_of_line {line : Byte} {n : Line} (h : line.toNat = n.val) (s : State) :
    exec (.isactive line) s =
      .next { s with resp := .bool (s.active n), made := [.rd32 (.af (lineBank n))] } := by
  have hv : value32 (.af (lineBank n)) s = .ok (bankView s.act (lineBank n)) := rfl
  rw [exec_isactive, onLine_of_line h, readStep_of_value hv, getLsbD_bankView_bitposOf, State.active]

/-! ### The statements -/

/-- Settles O8: the operation is the write-1-to-set of the line's own mask, which names that line alone. -/
theorem enableSetsOnlyItsLine : Obligations.EnableSetsOnlyItsLine := by
  unfold Obligations.EnableSetsOnlyItsLine
  refine ⟨fun o => decode_command_or_line o (by decide) decodeCommand_enable, fun line s h => ?_, fun line s h => ?_⟩
  · obtain ⟨n, hn⟩ := exists_line_of_le h
    rw [hn]
    have heff := flag_setBank_maskOf s.en n
    exact ⟨_, lineBank n, exec_enable_of_line hn s, rfl, heff,
      fun i hi => candidate_of_enabled ((heff i).trans (if_pos hi)), rfl⟩
  · rw [exec_enable, onLine_of_ge h]

/-- Settles O10: the write-1-to-set of O8 on the pending flags; the new candidate bit is the line's enable flag. -/
theorem setPendingSetsOnlyItsLine : Obligations.SetPendingSetsOnlyItsLine := by
  unfold Obligations.SetPendingSetsOnlyItsLine
  refine ⟨fun o => decode_command_or_line o (by decide) decodeCommand_setpend, fun line s h => ?_, fun line s h => ?_⟩
  · obtain ⟨n, hn⟩ := exists_line_of_le h
    rw [hn]
    have heff := flag_setBank_maskOf s.pend n
    exact ⟨_, lineBank n, exec_setpend_of_line hn s, rfl, heff,
      fun i hi => candidate_of_pending ((heff i).trans (if_pos hi)), rfl⟩
  · rw [exec_setpend, onLine_of_ge h]

/-- Settles O11: the operation is the write-1-to-clear of the line's own mask, which names that line alone. -/
theorem clearPendingClearsOnlyItsLine : Obligations.ClearPendingClearsOnlyItsLine := by
  unfold Obligations.ClearPendingClearsOnlyItsLine
  refine ⟨fun o => decode_command_or_line o (by decide) decodeCommand_clrpend, fun line s h => ?_, fun line s h => ?_⟩
  · obtain ⟨n, hn⟩ := exists_line_of_le h
    rw [hn]
    have heff := flag_clearBank_maskOf s.pend n
    exact ⟨_, lineBank n, exec_clrpend_of_line hn s, rfl, heff,
      fun i hi => candidate_of_not_pending ((heff i).trans (if_pos hi)), rfl⟩
  · rw [exec_clrpend, onLine_of_ge h]

/-- Settles O12: the bit taken from the bank's view is the line's active flag. -/
theorem isActiveReturnsTheActiveFlag : Obligations.IsActiveReturnsTheActiveFlag := by
  unfold Obligations.IsActiveReturnsTheActiveFlag
  refine ⟨fun o => decode_command_or_line o (by decide) decodeCommand_isactive, fun i line s h => ?_, fun line s h => ?_⟩
  · exact ⟨lineBank i, lineBank_val i, exec_isactive_of_line h s⟩
  · rw [exec_isactive, onLine_of_ge h]

end Sys2Proof.LineOps

/-! SUPPORT. The priority operations (41_priority_ops.md): their command words are the encoder's, the encoder's words
decode to them, and what each operation answers. -/

namespace Sys2Proof.PriorityOps

open Sys2Proof.Machine

/-! ### The command words with their fields in place (R81, R82) -/

/-- The word of SETPRI in format P: `prio` in bits 23:16, `line` in bits 7:0. -/
def setpriWord (line prio : Byte) : BitVec (8 + 8 + 8 + 8) := 0x50#8 ++ prio ++ 0#8 ++ line

/-- The word of SETGRP in format G: `sel` in bits 15:0. -/
def setgrpWord (sel : Half) : BitVec (16 + 16) := 0x6000#16 ++ sel

theorem encode_setpri (o : Offsets) (line prio : Byte) :
    encode o (.setpri line prio) = .command (setpriWord line prio) := rfl

theorem encode_setgrp (o : Offsets) (sel : Half) : encode o (.setgrp sel) = .command (setgrpWord sel) := rfl

/-- The word as R130 writes it, the operation code or-ed with both operands. -/
theorem or_prio_or_line_eq (line prio : Byte) :
    0x50000000#32 ||| (prio.setWidth 32 <<< 16) ||| line.setWidth 32 = setpriWord line prio := by
  have hword := BitVec.setWidth_append_append_append_eq_shiftLeft_setWidth_or
    (b := 0x50#8) (b' := prio) (b'' := 0#8) (b''' := line) (w'''' := 32)
  have hop : (0x50#8).setWidth 32 <<< (8 + 8 + 8) = 0x50000000#32 := by decide
  have hgap : (0#8).setWidth 32 <<< 8 = 0#32 := by decide
  rw [hop, hgap, BitVec.or_zero, BitVec.setWidth_eq] at hword
  exact hword.symm

/-- The word as R131 writes it, the operation code or-ed with the selector. -/
theorem or_sel_eq (sel : Half) : 0x60000000#32 ||| sel.setWidth 32 = setgrpWord sel := by
  have hword := BitVec.setWidth_append_eq_shiftLeft_setWidth_or (b := 0x6000#16) (b' := sel) (w'' := 32)
  have hop : (0x6000#16).setWidth 32 <<< 16 = 0x60000000#32 := by decide
  rw [hop, BitVec.setWidth_eq] at hword
  exact hword.symm

/-! ### The encoder's words decode (R82) -/

theorem decodeCommand_setpri (w : Word) (h : w.extractLsb' 28 4 = 5#4) : decodeCommand w = decodeP .setpri w := by
  simp [decodeCommand, h]

theorem decodeCommand_setgrp (w : Word) (h : w.extractLsb' 28 4 = 6#4) : decodeCommand w = decodeG .setgrp w := by
  simp [decodeCommand, h]

/-- Above the line the word of SETPRI holds what stands before the line. -/
theorem extractLsb'_setpriWord_of_ge_8 (line prio : Byte) {k : Nat} (n : Nat) (h : 8 ≤ k) :
    (setpriWord line prio).extractLsb' k n = (0x50#8 ++ prio ++ 0#8).extractLsb' (k - 8) n :=
  BitVec.extractLsb'_append_eq_of_le h

/-- Above both operands the word of SETPRI holds the operation code. -/
theorem extractLsb'_setpriWord_of_ge_24 (line prio : Byte) {k : Nat} (n : Nat) (h : 24 ≤ k) :
    (setpriWord line prio).extractLsb' k n = (0x50#8).extractLsb' (k - 24) n := by
  rw [extractLsb'_setpriWord_of_ge_8 line prio n (by omega), BitVec.extractLsb'_append_eq_of_le (by omega),
    BitVec.extractLsb'_append_eq_of_le (by omega), Nat.sub_sub, Nat.sub_sub]

theorem decode_encode_setpri (o : Offsets) (line prio : Byte) :
    decode o (encode o (.setpri line prio)) = .ok (.setpri line prio) := by
  have hop : (setpriWord line prio).extractLsb' 28 4 = 5#4 :=
    (extractLsb'_setpriWord_of_ge_24 line prio 4 (by decide)).trans (by decide)
  have hhigh : (setpriWord line prio).extractLsb' 24 4 = 0 :=
    (extractLsb'_setpriWord_of_ge_24 line prio 4 (by decide)).trans (by decide)
  have hprio : (setpriWord line prio).extractLsb' 16 8 = prio := by
    rw [extractLsb'_setpriWord_of_ge_8 line prio 8 (by decide), BitVec.extractLsb'_append_eq_of_le (by decide)]
    exact BitVec.extractLsb'_append_eq_right
  have hlow : (setpriWord line prio).extractLsb' 8 8 = 0 :=
    (extractLsb'_setpriWord_of_ge_8 line prio 8 (by decide)).trans BitVec.extractLsb'_append_eq_right
  have hline : (setpriWord line prio).extractLsb' 0 8 = line := BitVec.extractLsb'_append_eq_right
  calc decode o (encode o (.setpri line prio))
    _ = decodeCommand (setpriWord line prio) := by rw [encode_setpri, decode]
    _ = decodeP .setpri (setpriWord line prio) := decodeCommand_setpri _ hop
    _ = .ok (.setpri line prio) := by rw [decodeP, if_pos ⟨hhigh, hlow⟩, hline, hprio]

theorem decode_encode_setgrp (o : Offsets) (sel : Half) : decode o (encode o (.setgrp sel)) = .ok (.setgrp sel) := by
  have hop : (setgrpWord sel).extractLsb' 28 4 = 6#4 :=
    (BitVec.extractLsb'_append_eq_of_le (by decide)).trans (by decide)
  have hhigh : (setgrpWord sel).extractLsb' 16 12 = 0 :=
    (BitVec.extractLsb'_append_eq_of_le (by decide)).trans (by decide)
  have hsel : (setgrpWord sel).extractLsb' 0 16 = sel := BitVec.extractLsb'_append_eq_right
  calc decode o (encode o (.setgrp sel))
    _ = decodeCommand (setgrpWord sel) := by rw [encode_setgrp, decode]
    _ = decodeG .setgrp (setgrpWord sel) := decodeCommand_setgrp _ hop
    _ = .ok (.setgrp sel) := by rw [decodeG, if_pos hhigh, hsel]

/-! ### What each operation answers (R130 to R132) -/

theorem exec_setpri (line prio : Byte) (s : State) :
    exec (.setpri line prio) s = onLine line (fun i => writePriStep i prio) s := rfl

theorem exec_setgrp (sel : Half) (s : State) : exec (.setgrp sel) s = execSetgrp sel s := rfl

theorem exec_init (s : State) : exec .init s = writeStep .gcfg (gword (selectorOf Config.initMode)) s := rfl

/-- On a line that exists SETPRI stores the byte in the line's entry by one 8-bit write of it. -/
theorem exec_setpri_of_line {line : Byte} {n : Line} (h : line.toNat = n.val) (prio : Byte) (s : State) :
    exec (.setpri line prio) s = .next { s.withPrio n prio with resp := .done, made := [.wr8 n prio] } := by
  rw [exec_setpri, onLine_of_line h, writePriStep_eq, State.withPrio]

/-! ### The statements -/

/-- Settles O13: the operation is the one 8-bit write of the line's entry, which reads back there and nowhere else. -/
theorem setPriorityStoresTheWholeByte : Obligations.SetPriorityStoresTheWholeByte := by
  unfold Obligations.SetPriorityStoresTheWholeByte
  refine ⟨fun o line prio => ?_, fun n line prio s h => ?_, fun line prio s h => ?_⟩
  · rw [or_prio_or_line_eq, ← encode_setpri o, decode_encode_setpri]
  · exact ⟨_, exec_setpri_of_line h prio s, State.withPrio_prio s n prio, rfl⟩
  · rw [exec_setpri, onLine_of_ge h]

/-- Settles O14: the selector's check decides between the keyed write of the grouping word, which is clean and so always
takes effect, and the rejection. -/
theorem setGroupingStoresTheMode : Obligations.SetGroupingStoresTheMode := by
  unfold Obligations.SetGroupingStoresTheMode
  refine ⟨fun o sel => ?_, fun sel s h => ?_, fun sel s h => ?_⟩
  · rw [or_sel_eq, ← encode_setgrp o, decode_encode_setgrp]
  · rw [exec_setgrp, execSetgrp_of_isSelector h]
  · rw [exec_setgrp, execSetgrp_of_not_isSelector h]

/-- Settles O15: the selector of INIT_MODE is one of the five, whatever mode INIT_MODE is, so INIT's write takes effect as
that of SETGRP does. -/
theorem initIsSetGroupingOfTheDefaultMode : Obligations.InitIsSetGroupingOfTheDefaultMode := by
  unfold Obligations.InitIsSetGroupingOfTheDefaultMode
  have hsel := isSelector_selectorOf Config.initMode
  refine ⟨fun o => rfl, selectorOf Config.initMode, hsel, rfl, fun s => ?_⟩
  have hinit := writeStep_gword hsel s
  rw [exec_init, exec_setgrp, execSetgrp_of_isSelector hsel]
  exact ⟨hinit, hinit⟩

end Sys2Proof.PriorityOps

/-! SUPPORT. The raw register accesses (42_bus_register_ops.md): the headers of the registers and of the priority entries
through the decoder, and what the writes and reads of a bank and of an entry answer. -/

namespace Sys2Proof.BusRegs

open Sys2Proof.Machine

/-! ### Headers through the decoder (R90, R91) -/

/-- A header with the 32-bit size and the offset of a register is an access of that register (R53). -/
theorem decodeBus_of_s32 {o : Offsets} {h : BitVec 16} {t : Header} {r : Reg32} (hu : unpackHeader h = .ok t)
    (hs : t.size = .s32) (hr : o.reg32At t.off.toNat = some r) (d : Word) :
    decodeBus o h d = .ok (if t.wr then r.writeInstr d else r.readInstr) := by
  simp only [decodeBus, hu, hs, hr]

/-- A header with the 8-bit size and the offset of a priority entry is an access of that entry (R53). -/
theorem decodeBus_of_s8 {o : Offsets} {h : BitVec 16} {t : Header} {n : BitVec 6} (hu : unpackHeader h = .ok t)
    (hs : t.size = .s8) (hn : o.entryAt t.off.toNat = some n) (d : Word) :
    decodeBus o h d = .ok (if t.wr then .wrPri n (d.setWidth 8) else .rdPri n) := by
  simp only [decodeBus, hu, hs, hn]

section
variable {o : Offsets} (ho : o.wellFormed = true)
include ho

/-- The 12 bits of a header hold the whole offset of a register, so the decoder finds the register there. -/
theorem reg32At_ofNat_reg32 (r : Reg32) : o.reg32At (BitVec.ofNat 12 (o.reg32 r)).toNat = some r := by
  have hlt := reg32_lt ho r
  rw [BitVec.toNat_ofNat, Nat.mod_eq_of_lt (by omega), reg32At_reg32 ho]

/-- The 12 bits of a header hold the whole offset of a priority entry, so the decoder finds the entry there. -/
theorem entryAt_ofNat_entry {n : BitVec 6} (hn : n.toNat ≤ 59) :
    o.entryAt (BitVec.ofNat 12 (o.entry n.toNat)).toNat = some n := by
  have hlt : o.entry n.toNat < 4096 := entry_lt ho (by omega)
  rw [BitVec.toNat_ofNat, Nat.mod_eq_of_lt (by omega), entryAt_entry o hn]

theorem decode_writeHeader {h : BitVec 16} {r : Reg32}
    (hh : h = packHeader { wr := true, size := .s32, off := BitVec.ofNat 12 (o.reg32 r) }) (d : Word) :
    decode o (.bus h d) = .ok (r.writeInstr d) := by
  rw [hh, decode]
  exact decodeBus_of_s32 (unpackHeader_packHeader _) rfl (reg32At_ofNat_reg32 ho r) d

theorem decode_readHeader {h : BitVec 16} {r : Reg32}
    (hh : h = packHeader { wr := false, size := .s32, off := BitVec.ofNat 12 (o.reg32 r) }) (d : Word) :
    decode o (.bus h d) = .ok r.readInstr := by
  rw [hh, decode]
  exact decodeBus_of_s32 (unpackHeader_packHeader _) rfl (reg32At_ofNat_reg32 ho r) d

theorem decode_writeEntryHeader {h : BitVec 16} {n : BitVec 6} (hn : n.toNat ≤ 59)
    (hh : h = packHeader { wr := true, size := .s8, off := BitVec.ofNat 12 (o.entry n.toNat) }) (d : Word) :
    decode o (.bus h d) = .ok (.wrPri n (d.setWidth 8)) := by
  rw [hh, decode]
  exact decodeBus_of_s8 (unpackHeader_packHeader _) rfl (entryAt_ofNat_entry ho hn) d

theorem decode_readEntryHeader {h : BitVec 16} {n : BitVec 6} (hn : n.toNat ≤ 59)
    (hh : h = packHeader { wr := false, size := .s8, off := BitVec.ofNat 12 (o.entry n.toNat) }) (d : Word) :
    decode o (.bus h d) = .ok (.rdPri n) := by
  rw [hh, decode]
  exact decodeBus_of_s8 (unpackHeader_packHeader _) rfl (entryAt_ofNat_entry ho hn) d

end

theorem wellFormed_offsets : Config.offsets.wellFormed = true := by decide

/-! ### What each access answers (R151 to R162) -/

theorem exec_wrEs (b : Bank) (w : Word) (s : State) : exec (.wrEs b w) s = writeStep (.es b) w s := rfl

theorem exec_wrEc (b : Bank) (w : Word) (s : State) : exec (.wrEc b w) s = writeStep (.ec b) w s := rfl

theorem exec_wrPs (b : Bank) (w : Word) (s : State) : exec (.wrPs b w) s = writeStep (.ps b) w s := rfl

theorem exec_wrPc (b : Bank) (w : Word) (s : State) : exec (.wrPc b w) s = writeStep (.pc b) w s := rfl

theorem exec_rdEs (b : Bank) (s : State) : exec (.rdEs b) s = readStep (.es b) .data32 s := rfl

theorem exec_rdAf (b : Bank) (s : State) : exec (.rdAf b) s = readStep (.af b) .data32 s := rfl

/-- The read of a register whose value is the view of a bank answers a word that shows the bank's flags (R30, R56). -/
theorem readStep_showsBank {r : Reg32} {b : Bank} {f : Flags} {s : State} (h : value32 r s = .ok (bankView f b)) :
    ∃ v : Word, ShowsBank v b (flag f) ∧ readStep r .data32 s = .next { s with resp := .data32 v, made := [.rd32 r] } :=
  ⟨bankView f b, showsBank_bankView f b, readStep_of_value h .data32⟩

theorem exec_wrPri_of_entry {n : BitVec 6} {k : Line} (h : n.toNat = k.val) (w : Byte) (s : State) :
    exec (.wrPri n w) s = .next { s.withPrio k w with resp := .done, made := [.wr8 k w] } := by
  rw [exec, execWrPri, checkEntry_of_toNat h]
  exact writePriStep_eq k w s

theorem exec_rdPri_of_entry {n : BitVec 6} {k : Line} (h : n.toNat = k.val) (s : State) :
    exec (.rdPri n) s = .next { s with resp := .data8 (s.prio k), made := [.rd8 k] } := by
  rw [exec, execRdPri, checkEntry_of_toNat h]
  exact readPriStep_eq k s

/-- SETPRI leaves the byte in the line's entry (R130). -/
theorem prio_of_exec_setpri {line v : Byte} {k : Line} {s t : State} (h : line.toNat = k.val)
    (hs : exec (.setpri line v) s = .next t) : t.prio k = v := by
  rw [PriorityOps.exec_setpri_of_line h] at hs
  cases hs
  exact (State.withPrio_prio s k v k).trans (if_pos rfl)

/-! ### The statements -/

/-- Settles O18: the header is the one the map gives to a write of ES[b], and the write is write-1-to-set on EN (R57). -/
theorem writeEnableSetBank : Obligations.WriteEnableSetBank := by
  unfold Obligations.WriteEnableSetBank
  refine ⟨fun b => decode_writeHeader (r := .es b) wellFormed_offsets (by revert b; decide), fun b w s => ?_⟩
  rw [exec_wrEs, writeStep_es]
  exact ⟨_, rfl, fun _ => flag_setBank_of_names, fun _ => flag_setBank_of_not_names, rfl⟩

/-- Settles O19: the header is the one the map gives to a write of EC[b], and the write is write-1-to-clear on EN (R57). -/
theorem writeEnableClearBank : Obligations.WriteEnableClearBank := by
  unfold Obligations.WriteEnableClearBank
  refine ⟨fun b => decode_writeHeader (r := .ec b) wellFormed_offsets (by revert b; decide), fun b w s => ?_⟩
  rw [exec_wrEc, writeStep_ec]
  exact ⟨_, rfl, fun _ => flag_clearBank_of_names, fun _ => flag_clearBank_of_not_names, rfl⟩

/-- Settles O20: the header is the one the map gives to a write of PS[b], and the write is write-1-to-set on PEND (R57). -/
theorem writePendingSetBank : Obligations.WritePendingSetBank := by
  unfold Obligations.WritePendingSetBank
  refine ⟨fun b => decode_writeHeader (r := .ps b) wellFormed_offsets (by revert b; decide), fun b w s => ?_⟩
  rw [exec_wrPs, writeStep_ps]
  exact ⟨_, rfl, fun _ => flag_setBank_of_names, fun _ => flag_setBank_of_not_names, rfl⟩

/-- Settles O21: the header is the one the map gives to a write of PC[b], and the write is write-1-to-clear on PEND
(R57). -/
theorem writePendingClearBank : Obligations.WritePendingClearBank := by
  unfold Obligations.WritePendingClearBank
  refine ⟨fun b => decode_writeHeader (r := .pc b) wellFormed_offsets (by revert b; decide), fun b w s => ?_⟩
  rw [exec_wrPc, writeStep_pc]
  exact ⟨_, rfl, fun _ => flag_clearBank_of_names, fun _ => flag_clearBank_of_not_names, rfl⟩

/-- Settles O22: the value of ES[b] is the view of bank b of EN. -/
theorem readEnableSetBank : Obligations.ReadEnableSetBank := by
  unfold Obligations.ReadEnableSetBank
  refine ⟨fun b => decode_readHeader (r := .es b) wellFormed_offsets (by revert b; decide), fun b s => ?_⟩
  have hv : value32 (.es b) s = .ok (bankView s.en b) := rfl
  rw [exec_rdEs]
  exact readStep_showsBank hv

/-- Settles O26: the value of AF[b] is the view of bank b of ACT. -/
theorem readActiveBank : Obligations.ReadActiveBank := by
  unfold Obligations.ReadActiveBank
  refine ⟨fun b => decode_readHeader (r := .af b) wellFormed_offsets (by revert b; decide), fun b s => ?_⟩
  have hv : value32 (.af b) s = .ok (bankView s.act b) := rfl
  rw [exec_rdAf]
  exact readStep_showsBank hv

/-- Settles O28: an entry number of 0..59 names a line, and the write stores the byte in that line's entry alone. -/
theorem writePriorityEntry : Obligations.WritePriorityEntry := by
  unfold Obligations.WritePriorityEntry
  refine ⟨fun n d hn => decode_writeEntryHeader wellFormed_offsets hn (by clear hn; revert n; decide) d,
    fun k n w s h => ?_⟩
  exact ⟨_, exec_wrPri_of_entry h w s, State.withPrio_prio s k w, rfl⟩

/-- Settles O29: the read answers the stored byte, which after SETPRI is the operand. -/
theorem readPriorityEntry : Obligations.ReadPriorityEntry := by
  unfold Obligations.ReadPriorityEntry
  refine ⟨fun n d hn => decode_readEntryHeader wellFormed_offsets hn (by clear hn; revert n; decide) d,
    fun k n s h => exec_rdPri_of_entry h s, fun k n line v s t h hl hs => ?_⟩
  rw [exec_rdPri_of_entry h, prio_of_exec_setpri hl hs]

end Sys2Proof.BusRegs

/-! SUPPORT. The decoder and the encoder, against each other and against the lists of the forms that exist
(30_encoding.md): every command word and every header that decodes, said once, and the encoder's word for it. -/

namespace Sys2Proof.Encoding

/-! ### Command words that decode (R81 to R83) -/

/-- The operations of format L, by their operation code (R82). -/
inductive FormatL : BitVec 4 → (Byte → Instr) → Prop
  | enable : FormatL 0#4 .enable
  | disable : FormatL 1#4 .disable
  | setpend : FormatL 2#4 .setpend
  | clrpend : FormatL 3#4 .clrpend
  | isactive : FormatL 4#4 .isactive

theorem decodeCommand_disable (w : Word) (h : w.extractLsb' 28 4 = 1#4) : decodeCommand w = decodeL .disable w := by
  simp [decodeCommand, h]

/-- The operation codes 0x8..0xF are reserved (R83). -/
theorem decodeCommand_reserved {w : Word} (h : 8 ≤ (w.extractLsb' 28 4).toNat) :
    decodeCommand w = .error .reservedOp := by
  obtain ⟨k, hk⟩ := Nat.exists_eq_add_of_le h
  rw [decodeCommand, hk, Nat.add_comm]
  rfl

section
variable {op : BitVec 4} {mk : Byte → Instr}

theorem decodeCommand_formatL (h : FormatL op mk) {w : Word} (hop : w.extractLsb' 28 4 = op) :
    decodeCommand w = decodeL mk w := by
  cases h with
  | enable => exact LineOps.decodeCommand_enable w hop
  | disable => exact decodeCommand_disable w hop
  | setpend => exact LineOps.decodeCommand_setpend w hop
  | clrpend => exact LineOps.decodeCommand_clrpend w hop
  | isactive => exact LineOps.decodeCommand_isactive w hop

theorem encode_formatL (h : FormatL op mk) (o : Offsets) (line : Byte) : encode o (mk line) = encodeL op line := by
  cases h <;> rfl

theorem wellFormed_formatL (h : FormatL op mk) (line : Byte) : (mk line).wellFormed = true := by
  cases h <;> rfl

theorem op_le_of_formatL (h : FormatL op mk) : op.toNat ≤ 4 := by
  cases h <;> decide

/-- The operation codes 0..4 are those of format L. -/
theorem exists_formatL (h : op.toNat ≤ 4) : ∃ mk, FormatL op mk := by
  have hcases : op = 0#4 ∨ op = 1#4 ∨ op = 2#4 ∨ op = 3#4 ∨ op = 4#4 := by revert op; decide
  rcases hcases with rfl | rfl | rfl | rfl | rfl
  · exact ⟨_, .enable⟩
  · exact ⟨_, .disable⟩
  · exact ⟨_, .setpend⟩
  · exact ⟨_, .clrpend⟩
  · exact ⟨_, .isactive⟩

end

theorem decodeCommand_init {w : Word} (h : w.extractLsb' 28 4 = 7#4) : decodeCommand w = decodeZ .init w := by
  simp [decodeCommand, h]

/-- The formats of R81, as an inductive description of the command words that decode, with what each decodes to. -/
inductive Command (w : Word) : Instr → Prop
  | line {op : BitVec 4} {mk : Byte → Instr} (hmk : FormatL op mk) (hop : w.extractLsb' 28 4 = op)
      (hzero : w.extractLsb' 8 20 = 0) : Command w (mk (w.extractLsb' 0 8))
  | setpri (hop : w.extractLsb' 28 4 = 5#4) (hhigh : w.extractLsb' 24 4 = 0) (hlow : w.extractLsb' 8 8 = 0) :
      Command w (.setpri (w.extractLsb' 0 8) (w.extractLsb' 16 8))
  | setgrp (hop : w.extractLsb' 28 4 = 6#4) (hzero : w.extractLsb' 16 12 = 0) :
      Command w (.setgrp (w.extractLsb' 0 16))
  | init (hop : w.extractLsb' 28 4 = 7#4) (hzero : w.extractLsb' 0 28 = 0) : Command w .init

/-- A check that passed (R83). -/
theorem of_ite_eq_ok {p : Prop} [Decidable p] {x i : Instr} {e : DecodeError}
    (h : (if p then Except.ok x else Except.error e) = Except.ok i) : p ∧ x = i := by
  split at h
  next hp => cases h; exact ⟨hp, rfl⟩
  next => cases h

theorem decodeCommand_eq_ok_iff {w : Word} {i : Instr} : decodeCommand w = .ok i ↔ Command w i := by
  constructor
  · intro h
    have hcases : (w.extractLsb' 28 4).toNat ≤ 4 ∨ w.extractLsb' 28 4 = 5#4 ∨ w.extractLsb' 28 4 = 6#4 ∨
        w.extractLsb' 28 4 = 7#4 ∨ 8 ≤ (w.extractLsb' 28 4).toNat := by
      generalize w.extractLsb' 28 4 = op
      revert op; decide
    rcases hcases with hop | hop | hop | hop | hop
    · obtain ⟨mk, hmk⟩ := exists_formatL hop
      rw [decodeCommand_formatL hmk rfl, decodeL] at h
      obtain ⟨hzero, rfl⟩ := of_ite_eq_ok h
      exact .line hmk rfl hzero
    · rw [PriorityOps.decodeCommand_setpri w hop, decodeP] at h
      obtain ⟨⟨hhigh, hlow⟩, rfl⟩ := of_ite_eq_ok h
      exact .setpri hop hhigh hlow
    · rw [PriorityOps.decodeCommand_setgrp w hop, decodeG] at h
      obtain ⟨hzero, rfl⟩ := of_ite_eq_ok h
      exact .setgrp hop hzero
    · rw [decodeCommand_init hop, decodeZ] at h
      obtain ⟨hzero, rfl⟩ := of_ite_eq_ok h
      exact .init hop hzero
    · rw [decodeCommand_reserved hop] at h; cases h
  · intro h
    cases h with
    | line hmk hop hzero => rw [decodeCommand_formatL hmk hop, decodeL, if_pos hzero]
    | setpri hop hhigh hlow => rw [PriorityOps.decodeCommand_setpri w hop, decodeP, if_pos ⟨hhigh, hlow⟩]
    | setgrp hop hzero => rw [PriorityOps.decodeCommand_setgrp w hop, decodeG, if_pos hzero]
    | init hop hzero => rw [decodeCommand_init hop, decodeZ, if_pos hzero]

/-! ### The fields of a word -/

theorem extractLsb'_eq_zero_iff (w : Word) (a n : Nat) :
    w.extractLsb' a n = 0 ↔ ∀ k, a ≤ k → k < a + n → w.getLsbD k = false := by
  constructor
  · intro h k hk hkn
    have hbit := congrArg (fun x : BitVec n => x.getLsbD (k - a)) h
    have hlt : k - a < n := by omega
    have hadd : a + (k - a) = k := by omega
    simpa [BitVec.getLsbD_extractLsb', hlt, hadd] using hbit
  · intro h
    apply BitVec.eq_of_getLsbD_eq
    intro k hk
    rw [BitVec.getLsbD_extractLsb', h (a + k) (by omega) (by omega)]
    simp

/-- A field of zeros is two adjacent fields of zeros. -/
theorem extractLsb'_add_eq_zero_iff (w : Word) (a n m : Nat) :
    w.extractLsb' a (n + m) = 0 ↔ w.extractLsb' (a + n) m = 0 ∧ w.extractLsb' a n = 0 := by
  simp only [extractLsb'_eq_zero_iff]
  constructor
  · intro h
    exact ⟨fun k hk hkm => h k (by omega) (by omega), fun k hk hkn => h k hk (by omega)⟩
  · rintro ⟨hhigh, hlow⟩ k hk hknm
    by_cases hkn : k < a + n
    · exact hlow k hk hkn
    · exact hhigh k (by omega) (by omega)

/-- Adjacent fields of a word, joined. -/
theorem fields_join (w : Word) (a n m : Nat) : w.extractLsb' (a + n) m ++ w.extractLsb' a n = w.extractLsb' a (m + n) :=
  BitVec.extractLsb'_append_extractLsb'_eq_extractLsb' rfl

/-- The four formats of R81: a word is its fields in order. -/
theorem fieldsL (w : Word) : w.extractLsb' 28 4 ++ w.extractLsb' 8 20 ++ w.extractLsb' 0 8 = w := by
  rw [fields_join w 8 20 4, fields_join w 0 8 24, BitVec.extractLsb'_eq_self]

theorem fieldsP (w : Word) : w.extractLsb' 28 4 ++ w.extractLsb' 24 4 ++ w.extractLsb' 16 8 ++ w.extractLsb' 8 8 ++
    w.extractLsb' 0 8 = w := by
  rw [fields_join w 24 4 4, fields_join w 16 8 8, fields_join w 8 8 16, fields_join w 0 8 24,
    BitVec.extractLsb'_eq_self]

theorem fieldsG (w : Word) : w.extractLsb' 28 4 ++ w.extractLsb' 16 12 ++ w.extractLsb' 0 16 = w := by
  rw [fields_join w 16 12 4, fields_join w 0 16 16, BitVec.extractLsb'_eq_self]

theorem fieldsZ (w : Word) : w.extractLsb' 28 4 ++ w.extractLsb' 0 28 = w := by
  rw [fields_join w 0 28 4, BitVec.extractLsb'_eq_self]

/-- Settles O3: a format's zero bits are bits 27:24 and those that the format adds below them. -/
theorem reservedCommandWordsDecodeToNothing : Obligations.ReservedCommandWordsDecodeToNothing := by
  unfold Obligations.ReservedCommandWordsDecodeToNothing
  intro o w
  have hL : w.extractLsb' 8 20 = 0 ↔ w.extractLsb' 24 4 = 0 ∧ w.extractLsb' 8 16 = 0 :=
    extractLsb'_add_eq_zero_iff w 8 16 4
  have hG : w.extractLsb' 16 12 = 0 ↔ w.extractLsb' 24 4 = 0 ∧ w.extractLsb' 16 8 = 0 :=
    extractLsb'_add_eq_zero_iff w 16 8 4
  have hZ : w.extractLsb' 0 28 = 0 ↔ w.extractLsb' 24 4 = 0 ∧ w.extractLsb' 0 24 = 0 :=
    extractLsb'_add_eq_zero_iff w 0 24 4
  simp only [decode, decodeCommand_eq_ok_iff]
  constructor
  · rintro ⟨i, h⟩
    cases h with
    | @line op _ hmk hop hzero => exact ⟨(hL.1 hzero).1, .inl ⟨hop ▸ op_le_of_formatL hmk, (hL.1 hzero).2⟩⟩
    | setpri hop hhigh hlow => exact ⟨hhigh, .inr (.inl ⟨hop, hlow⟩)⟩
    | setgrp hop hzero => exact ⟨(hG.1 hzero).1, .inr (.inr (.inl ⟨hop, (hG.1 hzero).2⟩))⟩
    | init hop hzero => exact ⟨(hZ.1 hzero).1, .inr (.inr (.inr ⟨hop, (hZ.1 hzero).2⟩))⟩
  · rintro ⟨hhigh, ⟨hop, hlow⟩ | ⟨hop, hlow⟩ | ⟨hop, hlow⟩ | ⟨hop, hlow⟩⟩
    · obtain ⟨mk, hmk⟩ := exists_formatL hop
      exact ⟨_, .line hmk rfl (hL.2 ⟨hhigh, hlow⟩)⟩
    · exact ⟨_, .setpri hop hhigh hlow⟩
    · exact ⟨_, .setgrp hop (hG.2 ⟨hhigh, hlow⟩)⟩
    · exact ⟨_, .init hop (hZ.2 ⟨hhigh, hlow⟩)⟩

/-- The encoder's word for what a command word decodes to is that word. -/
theorem encode_of_command {w : Word} {i : Instr} (h : Command w i) (o : Offsets) : encode o i = .command w := by
  cases h with
  | line hmk hop hzero =>
    have hw := fieldsL w
    rw [hop, hzero] at hw
    exact (encode_formatL hmk o _).trans (congrArg Coded.command hw)
  | setpri hop hhigh hlow =>
    have hw := fieldsP w
    rw [hop, hhigh, hlow] at hw
    exact congrArg Coded.command hw
  | setgrp hop hzero =>
    have hw := fieldsG w
    rw [hop, hzero] at hw
    exact congrArg Coded.command hw
  | init hop hzero =>
    have hw := fieldsZ w
    rw [hop, hzero] at hw
    exact congrArg Coded.command hw

theorem wellFormed_of_command {w : Word} {i : Instr} (h : Command w i) : i.wellFormed = true := by
  cases h with
  | line hmk _ _ => exact wellFormed_formatL hmk _
  | _ => rfl

/-! ### Headers that decode (R90, R91) -/

/-- The headers of R91, as an inductive description of the transactions that decode, with what each decodes to: an
access of a register or of a priority entry with its own size, at its own offset. -/
inductive Transaction (o : Offsets) (h : BitVec 16) (d : Word) : Instr → Prop
  | reg {t : Header} {r : Reg32} (hu : unpackHeader h = .ok t) (hs : t.size = .s32)
      (hr : o.reg32At t.off.toNat = some r) : Transaction o h d (if t.wr then r.writeInstr d else r.readInstr)
  | entry {t : Header} {n : BitVec 6} (hu : unpackHeader h = .ok t) (hs : t.size = .s8)
      (hn : o.entryAt t.off.toNat = some n) : Transaction o h d (if t.wr then .wrPri n (d.setWidth 8) else .rdPri n)

theorem decodeBus_eq_ok_iff {o : Offsets} {h : BitVec 16} {d : Word} {i : Instr} :
    decodeBus o h d = .ok i ↔ Transaction o h d i := by
  constructor
  · intro hd
    rw [decodeBus] at hd
    cases hu : unpackHeader h with
    | error e => rw [hu] at hd; cases hd
    | ok t =>
      cases hs : t.size with
      | s32 =>
        cases hr : o.reg32At t.off.toNat with
        | some r => simp only [hu, hs, hr] at hd; cases hd; exact .reg hu hs hr
        | none => simp only [hu, hs, hr] at hd; cases hd
      | s8 =>
        cases hn : o.entryAt t.off.toNat with
        | some n => simp only [hu, hs, hn] at hd; cases hd; exact .entry hu hs hn
        | none => simp only [hu, hs, hn] at hd; cases hd
      | s16 => simp only [hu, hs] at hd; cases hd
  · intro ht
    cases ht with
    | reg hu hs hr => exact BusRegs.decodeBus_of_s32 hu hs hr d
    | entry hu hs hn => exact BusRegs.decodeBus_of_s8 hu hs hn d

theorem wellFormed_writeInstr (r : Reg32) (d : Word) : (r.writeInstr d).wellFormed = true := by
  cases r <;> rfl

theorem wellFormed_readInstr (r : Reg32) : r.readInstr.wellFormed = true := by
  cases r <;> rfl

theorem encode_writeInstr (o : Offsets) (r : Reg32) (d : Word) : encode o (r.writeInstr d) = encodeWr32 o r d := by
  cases r <;> rfl

theorem encode_readInstr (o : Offsets) (r : Reg32) : encode o r.readInstr = encodeRd32 o r := by
  cases r <;> rfl

theorem wellFormed_of_transaction {o : Offsets} {h : BitVec 16} {d : Word} {i : Instr} (ht : Transaction o h d i) :
    i.wellFormed = true := by
  cases ht with
  | @reg t r _ _ _ =>
    cases t.wr with
    | true => exact wellFormed_writeInstr r d
    | false => exact wellFormed_readInstr r
  | @entry t n _ _ hn =>
    obtain ⟨hle, -⟩ := entryAt_eq_some hn
    cases t.wr with
    | true => exact decide_eq_true hle
    | false => exact decide_eq_true hle

/-- What decodes is well formed, for every choice of the offsets. -/
theorem wellFormed_of_decode {o : Offsets} {x : Coded} {i : Instr} (h : decode o x = .ok i) : i.wellFormed = true := by
  cases x with
  | command w => exact wellFormed_of_command (decodeCommand_eq_ok_iff.1 h)
  | bus hd d => exact wellFormed_of_transaction (decodeBus_eq_ok_iff.1 h)

/-- A header is the packing of its write bit, its size and the offset of what it reaches. -/
theorem packHeader_of_offset {h : BitVec 16} {t : Header} (hu : unpackHeader h = .ok t) {size : Size}
    (hs : t.size = size) {off : Nat} (hoff : off = t.off.toNat) :
    packHeader { wr := t.wr, size := size, off := BitVec.ofNat 12 off } = h := by
  rw [← packHeader_of_unpackHeader hu, hoff, ← hs, BitVec.ofNat_toNat, BitVec.setWidth_eq]

/-- The encoder's header for what a transaction decodes to is the transaction's header. -/
theorem encode_of_transaction {o : Offsets} {h : BitVec 16} {d : Word} {i : Instr} (ht : Transaction o h d i) :
    ∃ d', encode o i = .bus h d' := by
  cases ht with
  | @reg t r hu hs hr =>
    have hh := packHeader_of_offset hu hs (reg32At_eq_some hr)
    cases hw : t.wr with
    | true => exact ⟨d, (encode_writeInstr o r d).trans (by rw [encodeWr32, ← hh, hw])⟩
    | false => exact ⟨0#32, (encode_readInstr o r).trans (by rw [encodeRd32, ← hh, hw])⟩
  | @entry t n hu hs hn =>
    obtain ⟨-, hoff⟩ := entryAt_eq_some hn
    have hh := packHeader_of_offset hu hs hoff
    cases hw : t.wr with
    | true => exact ⟨_, by rw [← hh, hw]; rfl⟩
    | false => exact ⟨_, by rw [← hh, hw]; rfl⟩

/-! ### The two directions -/

/-- Settles O2: the encoder puts back, field by field, what the decoder took apart. -/
theorem encodeOfDecodeIsTheWord : Obligations.EncodeOfDecodeIsTheWord := by
  unfold Obligations.EncodeOfDecodeIsTheWord
  intro o i _
  refine ⟨fun w hd => ⟨wellFormed_of_decode hd, ?_⟩, fun h d hd => ⟨wellFormed_of_decode hd, ?_⟩⟩
  · exact encode_of_command (decodeCommand_eq_ok_iff.1 hd) o
  · exact encode_of_transaction (decodeBus_eq_ok_iff.1 hd)

theorem decode_encode_formatL {op : BitVec 4} {mk : Byte → Instr} (h : FormatL op mk) (o : Offsets) (line : Byte) :
    decode o (encode o (mk line)) = .ok (mk line) := by
  rw [encode_formatL h]
  exact LineOps.decode_encodeL o (fun _ => decodeCommand_formatL h) line

section
variable {o : Offsets} (ho : o.wellFormed = true)
include ho

theorem decode_encode_writeInstr (r : Reg32) (d : Word) :
    decode o (encode o (r.writeInstr d)) = .ok (r.writeInstr d) := by
  rw [encode_writeInstr]
  exact BusRegs.decode_writeHeader ho rfl d

theorem decode_encode_readInstr (r : Reg32) : decode o (encode o r.readInstr) = .ok r.readInstr := by
  rw [encode_readInstr]
  exact BusRegs.decode_readHeader ho rfl 0#32

theorem decode_encode_wrPri {n : BitVec 6} (hn : n.toNat ≤ 59) (w : Byte) :
    decode o (encode o (.wrPri n w)) = .ok (.wrPri n w) := by
  have hw : (w.setWidth 32).setWidth 8 = w := by simp
  exact (BusRegs.decode_writeEntryHeader ho hn rfl _).trans (by rw [hw])

theorem decode_encode_rdPri {n : BitVec 6} (hn : n.toNat ≤ 59) : decode o (encode o (.rdPri n)) = .ok (.rdPri n) :=
  BusRegs.decode_readEntryHeader ho hn rfl 0#32

end

/-- Settles O1: by the forms of R81 for the operations, and for the transactions because admissible offsets put at most
one register at the header's offset. -/
theorem decodeOfEncodeIsTheInstruction : Obligations.DecodeOfEncodeIsTheInstruction := by
  unfold Obligations.DecodeOfEncodeIsTheInstruction
  intro o i ho hi
  cases i with
  | enable line => exact decode_encode_formatL .enable o line
  | disable line => exact decode_encode_formatL .disable o line
  | setpend line => exact decode_encode_formatL .setpend o line
  | clrpend line => exact decode_encode_formatL .clrpend o line
  | isactive line => exact decode_encode_formatL .isactive o line
  | setpri line prio => exact PriorityOps.decode_encode_setpri o line prio
  | setgrp sel => exact PriorityOps.decode_encode_setgrp o sel
  | init => rfl
  | wrEs b w => exact decode_encode_writeInstr ho (.es b) w
  | rdEs b => exact decode_encode_readInstr ho (.es b)
  | wrEc b w => exact decode_encode_writeInstr ho (.ec b) w
  | rdEc b => exact decode_encode_readInstr ho (.ec b)
  | wrPs b w => exact decode_encode_writeInstr ho (.ps b) w
  | rdPs b => exact decode_encode_readInstr ho (.ps b)
  | wrPc b w => exact decode_encode_writeInstr ho (.pc b) w
  | rdPc b => exact decode_encode_readInstr ho (.pc b)
  | rdAf b => exact decode_encode_readInstr ho (.af b)
  | wrAf b w => exact decode_encode_writeInstr ho (.af b) w
  | wrPri n w => exact decode_encode_wrPri ho (of_decide_eq_true hi) w
  | rdPri n => exact decode_encode_rdPri ho (of_decide_eq_true hi)
  | wrGcfg w => exact decode_encode_writeInstr ho .gcfg w
  | rdGcfg => exact decode_encode_readInstr ho .gcfg

/-! ### Which headers decode -/

/-- The headers that unpack, and their fields. -/
theorem unpackHeader_of_code {h : BitVec 16} {size : Size} (h14 : h.getLsbD 14 = false)
    (hc : h.extractLsb' 12 2 = size.code) :
    unpackHeader h = .ok { wr := h.getLsbD 15, size := size, off := h.extractLsb' 0 12 } := by
  simp only [unpackHeader, h14, hc, ofCode_code]
  rfl

theorem fields_of_unpackHeader {h : BitVec 16} {t : Header} (hu : unpackHeader h = .ok t) :
    h.getLsbD 14 = false ∧ h.extractLsb' 12 2 = t.size.code ∧ h.extractLsb' 0 12 = t.off := by
  rw [unpackHeader] at hu
  split at hu
  next => cases hu
  next h14 =>
    split at hu
    next => cases hu
    next size hs => cases hu; exact ⟨by simpa using h14, (code_of_ofCode hs).symm, rfl⟩

/-- Settles O59: a header unpacks unless bit 14 is set or its size code is 11, and then reaches what stands at its
offset with its size. -/
theorem missizedAccessesAreRefused : Obligations.MissizedAccessesAreRefused := by
  unfold Obligations.MissizedAccessesAreRefused
  intro o h d ho
  simp only [decode, decodeBus_eq_ok_iff]
  constructor
  · rintro ⟨i, ht⟩
    cases ht with
    | @reg t r hu hs hr =>
      obtain ⟨h14, hcode, hoff⟩ := fields_of_unpackHeader hu
      exact ⟨h14, .inl ⟨by rw [hcode, hs]; rfl, r, hoff ▸ reg32At_eq_some hr⟩⟩
    | @entry t n hu hs hn =>
      obtain ⟨h14, hcode, hoff⟩ := fields_of_unpackHeader hu
      obtain ⟨hle, hentry⟩ := entryAt_eq_some hn
      exact ⟨h14, .inr ⟨by rw [hcode, hs]; rfl, ⟨n.toNat, by omega⟩, hoff ▸ hentry⟩⟩
  · rintro ⟨h14, ⟨hcode, r, hr⟩ | ⟨hcode, n, hn⟩⟩
    · have hu := unpackHeader_of_code (size := .s32) h14 hcode
      exact ⟨_, .reg hu rfl (hr ▸ reg32At_reg32 ho r)⟩
    · have hu := unpackHeader_of_code (size := .s8) h14 hcode
      have hval : (BitVec.ofNat 6 n.val).toNat = n.val := by simp; omega
      have hat := entryAt_entry o (n := BitVec.ofNat 6 n.val) (by omega)
      rw [hval, hn] at hat
      exact ⟨_, .entry hu rfl hat⟩

/-- An 8-bit header at an offset that is no priority entry is refused, under the name of what stands there (R166,
R167). -/
theorem decodeBus_of_no_entry {o : Offsets} {h : BitVec 16} {t : Header} (hu : unpackHeader h = .ok t)
    (hs : t.size = .s8) (hn : o.entryAt t.off.toNat = none) (d : Word) :
    decodeBus o h d = .error (o.whyRefused .s8 t.off.toNat) := by
  simp only [decodeBus, hu, hs, hn]

/-- With the default offsets nothing stands where the entries 60..63 would (R50, R167). -/
theorem nothing_above_entry_59 : ∀ n : BitVec 6, 60 ≤ n.toNat →
    Config.offsets.entryAt (BitVec.ofNat 12 (Config.offsets.entry n.toNat)).toNat = none ∧
      Config.offsets.whyRefused .s8 (BitVec.ofNat 12 (Config.offsets.entry n.toNat)).toNat = .unmapped := by
  decide

theorem decode_entry_above_59 {h : BitVec 16} {n : BitVec 6} {wr : Bool} (hn : 60 ≤ n.toNat)
    (hh : h = packHeader { wr := wr, size := .s8, off := BitVec.ofNat 12 (Config.offsets.entry n.toNat) }) (d : Word) :
    decode Config.offsets (.bus h d) = .error .unmapped := by
  obtain ⟨hnone, hwhy⟩ := nothing_above_entry_59 n hn
  rw [hh, decode, decodeBus_of_no_entry (unpackHeader_packHeader _) rfl hnone, hwhy]

/-- Settles O4: each word through the decoder. -/
theorem specWordsDecodeAsListed : Obligations.SpecWordsDecodeAsListed := by
  unfold Obligations.SpecWordsDecodeAsListed
  exact ⟨rfl, rfl, rfl, rfl, rfl, rfl, rfl, rfl, rfl, rfl, rfl, rfl, rfl, rfl, rfl, rfl, rfl, rfl⟩

end Sys2Proof.Encoding

/-! SUPPORT. Every instruction as the one register access it makes (R86, R150). Whatever an instruction does is then
said once, per access, and the statements about all instructions follow from these few cases. -/

namespace Sys2Proof.Accesses

open Sys2Proof.Machine

/-! ### The access of an instruction -/

/-- The step that is the access `a` alone; `reply` makes the caller's answer of a 32-bit value read. -/
def run (reply : Word → Response) (s : State) : Access → Result
  | .wr32 r w => writeStep r w s
  | .rd32 r => readStep r reply s
  | .wr8 n w => writePriStep n w s
  | .rd8 n => readPriStep n s

/-- What an instruction answers when it has read a 32-bit value (R90, R115). -/
def answer : Instr → Word → Response
  | .isactive line => fun v => .bool (v.getLsbD (bitposOf line.toNat))
  | _ => .data32

/-- The instruction makes the access: an operation with an operand that passes its check (R111 to R115, R130 to R132),
or a raw transaction (R150). -/
inductive Makes : Instr → Access → Prop
  | enable {line : Byte} {n : Line} (h : line.toNat = n.val) :
      Makes (.enable line) (.wr32 (.es (lineBank n)) (maskOf n.val))
  | disable {line : Byte} {n : Line} (h : line.toNat = n.val) :
      Makes (.disable line) (.wr32 (.ec (lineBank n)) (maskOf n.val))
  | setpend {line : Byte} {n : Line} (h : line.toNat = n.val) :
      Makes (.setpend line) (.wr32 (.ps (lineBank n)) (maskOf n.val))
  | clrpend {line : Byte} {n : Line} (h : line.toNat = n.val) :
      Makes (.clrpend line) (.wr32 (.pc (lineBank n)) (maskOf n.val))
  | isactive {line : Byte} {n : Line} (h : line.toNat = n.val) : Makes (.isactive line) (.rd32 (.af (lineBank n)))
  | setpri {line : Byte} {n : Line} (h : line.toNat = n.val) (prio : Byte) : Makes (.setpri line prio) (.wr8 n prio)
  | setgrp {sel : Half} (h : IsSelector sel) : Makes (.setgrp sel) (.wr32 .gcfg (gword sel))
  | init : Makes .init (.wr32 .gcfg (gword (selectorOf Config.initMode)))
  | write (r : Reg32) (w : Word) : Makes (r.writeInstr w) (.wr32 r w)
  | read (r : Reg32) : Makes r.readInstr (.rd32 r)
  | wrPri {n : BitVec 6} {k : Line} (h : n.toNat = k.val) (w : Byte) : Makes (.wrPri n w) (.wr8 k w)
  | rdPri {n : BitVec 6} {k : Line} (h : n.toNat = k.val) : Makes (.rdPri n) (.rd8 k)

/-- The operation is rejected with the error (R110, R131). -/
inductive Rejects : Instr → OpError → Prop
  | enable {line : Byte} (h : 60 ≤ line.toNat) : Rejects (.enable line) (.invalidLine line)
  | disable {line : Byte} (h : 60 ≤ line.toNat) : Rejects (.disable line) (.invalidLine line)
  | setpend {line : Byte} (h : 60 ≤ line.toNat) : Rejects (.setpend line) (.invalidLine line)
  | clrpend {line : Byte} (h : 60 ≤ line.toNat) : Rejects (.clrpend line) (.invalidLine line)
  | isactive {line : Byte} (h : 60 ≤ line.toNat) : Rejects (.isactive line) (.invalidLine line)
  | setpri {line : Byte} (h : 60 ≤ line.toNat) (prio : Byte) : Rejects (.setpri line prio) (.invalidLine line)
  | setgrp {sel : Half} (h : ¬ IsSelector sel) : Rejects (.setgrp sel) (.invalidGroupingMode sel)

/-! ### Every instruction makes one access, is rejected or is ill formed -/

theorem exec_writeInstr (r : Reg32) (w : Word) (s : State) : exec (r.writeInstr w) s = writeStep r w s := by
  cases r <;> rfl

theorem exec_readInstr (r : Reg32) (s : State) : exec r.readInstr s = readStep r .data32 s := by
  cases r <;> rfl

theorem answer_readInstr (r : Reg32) : answer r.readInstr = .data32 := by
  cases r <;> rfl

/-- An instruction is its access, in every state. -/
theorem exec_of_makes {i : Instr} {a : Access} (h : Makes i a) (s : State) : exec i s = run (answer i) s a := by
  cases h with
  | enable h => exact LineOps.exec_enable_of_line h s
  | disable h => exact onLine_of_line h _ s
  | setpend h => exact LineOps.exec_setpend_of_line h s
  | clrpend h => exact LineOps.exec_clrpend_of_line h s
  | isactive h => exact (onLine_of_line h _ s).trans (by rw [run, answer, h])
  | setpri h prio => exact PriorityOps.exec_setpri_of_line h prio s
  | setgrp h => exact (execSetgrp_of_isSelector h s).trans (writeStep_gword h s).symm
  | init => rfl
  | write r w => exact exec_writeInstr r w s
  | read r => rw [exec_readInstr, answer_readInstr, run]
  | wrPri h w => exact BusRegs.exec_wrPri_of_entry h w s
  | rdPri h => exact BusRegs.exec_rdPri_of_entry h s

/-- A rejected operation hands the error to its caller and changes nothing else (R224). -/
theorem exec_of_rejects {i : Instr} {e : OpError} (h : Rejects i e) (s : State) :
    exec i s = .next { s with resp := .rejected e, made := [] } := by
  cases h with
  | setgrp h => exact execSetgrp_of_not_isSelector h s
  | setpri h _ => exact onLine_of_ge h _ s
  | _ h => exact onLine_of_ge h _ s

/-- An entry number 60..63 reaches no register, and no other instruction is ill formed (R91, R167). -/
theorem exec_of_ill_formed {i : Instr} (h : i.wellFormed = false) (s : State) :
    exec i s = .refused (.invalid .unmapped) := by
  cases i with
  | wrPri n w =>
    have hn : ¬ n.toNat ≤ 59 := of_decide_eq_false h
    rw [exec, execWrPri, checkEntry_of_ge (by omega)]
  | rdPri n =>
    have hn : ¬ n.toNat ≤ 59 := of_decide_eq_false h
    rw [exec, execRdPri, checkEntry_of_ge (by omega)]
  | _ => cases h

/-- A line operand names a line or is above 59 (R85). -/
theorem line_cases (line : Byte) : (∃ n : Line, line.toNat = n.val) ∨ 60 ≤ line.toNat := by
  by_cases h : line.toNat ≤ 59
  · exact .inl (LineOps.exists_line_of_le h)
  · exact .inr (by omega)

/-- An operation on a line makes its access or is rejected (R110). -/
theorem makes_or_rejects_of_line {i : Instr} {line : Byte} {a : Line → Access}
    (hm : ∀ {n : Line}, line.toNat = n.val → Makes i (a n)) (hr : 60 ≤ line.toNat → Rejects i (.invalidLine line)) :
    (∃ a, Makes i a) ∨ (∃ e, Rejects i e) ∨ i.wellFormed = false := by
  rcases line_cases line with ⟨n, hn⟩ | hl
  · exact .inl ⟨a n, hm hn⟩
  · exact .inr (.inl ⟨_, hr hl⟩)

/-- An access of a priority entry is made or is ill formed (R91). -/
theorem makes_or_ill_formed_of_entry {i : Instr} {n : BitVec 6} {a : Line → Access}
    (hw : i.wellFormed = decide (n.toNat ≤ 59)) (hm : ∀ {k : Line}, n.toNat = k.val → Makes i (a k)) :
    (∃ a, Makes i a) ∨ (∃ e, Rejects i e) ∨ i.wellFormed = false := by
  by_cases hn : n.toNat ≤ 59
  · exact .inl ⟨_, hm (k := ⟨n.toNat, by omega⟩) rfl⟩
  · exact .inr (.inr (by rw [hw, decide_eq_false hn]))

theorem makes_or_rejects (i : Instr) : (∃ a, Makes i a) ∨ (∃ e, Rejects i e) ∨ i.wellFormed = false := by
  cases i with
  | enable line => exact makes_or_rejects_of_line .enable .enable
  | disable line => exact makes_or_rejects_of_line .disable .disable
  | setpend line => exact makes_or_rejects_of_line .setpend .setpend
  | clrpend line => exact makes_or_rejects_of_line .clrpend .clrpend
  | isactive line => exact makes_or_rejects_of_line .isactive .isactive
  | setpri line prio => exact makes_or_rejects_of_line (.setpri · prio) (.setpri · prio)
  | setgrp sel =>
    by_cases h : IsSelector sel
    · exact .inl ⟨_, .setgrp h⟩
    · exact .inr (.inl ⟨_, .setgrp h⟩)
  | init => exact .inl ⟨_, .init⟩
  | wrEs b w => exact .inl ⟨_, .write (.es b) w⟩
  | rdEs b => exact .inl ⟨_, .read (.es b)⟩
  | wrEc b w => exact .inl ⟨_, .write (.ec b) w⟩
  | rdEc b => exact .inl ⟨_, .read (.ec b)⟩
  | wrPs b w => exact .inl ⟨_, .write (.ps b) w⟩
  | rdPs b => exact .inl ⟨_, .read (.ps b)⟩
  | wrPc b w => exact .inl ⟨_, .write (.pc b) w⟩
  | rdPc b => exact .inl ⟨_, .read (.pc b)⟩
  | rdAf b => exact .inl ⟨_, .read (.af b)⟩
  | wrAf b w => exact .inl ⟨_, .write (.af b) w⟩
  | wrPri n w => exact makes_or_ill_formed_of_entry rfl (.wrPri · w)
  | rdPri n => exact makes_or_ill_formed_of_entry rfl .rdPri
  | wrGcfg w => exact .inl ⟨_, .write .gcfg w⟩
  | rdGcfg => exact .inl ⟨_, .read .gcfg⟩

/-! ### What an access does -/

/-- The access completes from `s` in `t`: which flags, byte or mode it changes, and what it answers (R151 to R165). -/
inductive Completes (reply : Word → Response) (s : State) : Access → State → Prop
  | es (b : Bank) (w : Word) : Completes reply s (.wr32 (.es b) w)
      { s with en := setBank s.en b w, resp := .done, made := [.wr32 (.es b) w] }
  | ec (b : Bank) (w : Word) : Completes reply s (.wr32 (.ec b) w)
      { s with en := clearBank s.en b w, resp := .done, made := [.wr32 (.ec b) w] }
  | ps (b : Bank) (w : Word) : Completes reply s (.wr32 (.ps b) w)
      { s with pend := setBank s.pend b w, resp := .done, made := [.wr32 (.ps b) w] }
  | pc (b : Bank) (w : Word) : Completes reply s (.wr32 (.pc b) w)
      { s with pend := clearBank s.pend b w, resp := .done, made := [.wr32 (.pc b) w] }
  | af (b : Bank) (w : Word) : Completes reply s (.wr32 (.af b) w) { s with resp := .done, made := [.wr32 (.af b) w] }
  | wrongKey {w : Word} (h : w.extractLsb' 16 16 ≠ Config.unlockKey) : Completes reply s (.wr32 .gcfg w)
      { s with resp := .done, made := [.wr32 .gcfg w] }
  | keyed {w : Word} (h : w.extractLsb' 16 16 = Config.unlockKey) (c : IsClean w) : Completes reply s (.wr32 .gcfg w)
      { s with mode := some (w.extractLsb' 8 3), resp := .done, made := [.wr32 .gcfg w] }
  | read {r : Reg32} {v : Word} (h : value32 r s = .ok v) : Completes reply s (.rd32 r)
      { s with resp := reply v, made := [.rd32 r] }
  | wr8 (n : Line) (w : Byte) : Completes reply s (.wr8 n w) { s.withPrio n w with resp := .done, made := [.wr8 n w] }
  | rd8 (n : Line) : Completes reply s (.rd8 n) { s with resp := .data8 (s.prio n), made := [.rd8 n] }

/-- The access is refused: a key-matched write of `GCFG` that is not clean, or a read of it without a mode (R163 (c),
R164). -/
inductive Refuses (s : State) : Access → Refusal → Prop
  | notClean {w : Word} (h : w.extractLsb' 16 16 = Config.unlockKey) (c : ¬ IsClean w) :
      Refuses s (.wr32 .gcfg w) .keyedWriteNotClean
  | noMode (h : s.mode = none) : Refuses s (.rd32 .gcfg) .modeHasNoValue

/-- Every access of a register completes or is refused. -/
theorem run_cases (reply : Word → Response) (s : State) (a : Access) :
    (∃ t, run reply s a = .next t ∧ Completes reply s a t) ∨ (∃ e, run reply s a = .refused e ∧ Refuses s a e) := by
  have read : ∀ {r v}, value32 r s = .ok v → ∃ t, run reply s (.rd32 r) = .next t ∧ Completes reply s (.rd32 r) t :=
    fun h => ⟨_, readStep_of_value h reply, .read h⟩
  cases a with
  | wr8 n w => exact .inl ⟨_, writePriStep_eq n w s, .wr8 n w⟩
  | rd8 n => exact .inl ⟨_, readPriStep_eq n s, .rd8 n⟩
  | rd32 r =>
    cases r with
    | es b => exact .inl (read rfl)
    | ec b => exact .inl (read rfl)
    | ps b => exact .inl (read rfl)
    | pc b => exact .inl (read rfl)
    | af b => exact .inl (read rfl)
    | gcfg =>
      cases hm : s.mode with
      | none => exact .inr ⟨_, readStep_of_error (value32_gcfg_of_none hm) reply, .noMode hm⟩
      | some m => exact .inl (read (value32_gcfg_of_some hm))
  | wr32 r w =>
    cases r with
    | es b => exact .inl ⟨_, writeStep_es b w s, .es b w⟩
    | ec b => exact .inl ⟨_, writeStep_ec b w s, .ec b w⟩
    | ps b => exact .inl ⟨_, writeStep_ps b w s, .ps b w⟩
    | pc b => exact .inl ⟨_, writeStep_pc b w s, .pc b w⟩
    | af b => exact .inl ⟨_, writeStep_af b w s, .af b w⟩
    | gcfg =>
      by_cases hk : w.extractLsb' 16 16 = Config.unlockKey
      · by_cases hc : IsClean w
        · exact .inl ⟨_, writeStep_gcfg_of_clean hk hc s, .keyed hk hc⟩
        · exact .inr ⟨_, writeStep_gcfg_of_not_clean hk hc s, .notClean hk hc⟩
      · exact .inl ⟨_, writeStep_gcfg_of_wrong_key hk s, .wrongKey hk⟩

section
variable {reply : Word → Response} {s t : State} {a : Access}

theorem completes_of_run (h : run reply s a = .next t) : Completes reply s a t := by
  rcases run_cases reply s a with ⟨u, hu, hc⟩ | ⟨e, he, -⟩
  · rw [hu] at h; cases h; exact hc
  · rw [he] at h; cases h

theorem refuses_of_run {e : Refusal} (h : run reply s a = .refused e) : Refuses s a e := by
  rcases run_cases reply s a with ⟨u, hu, -⟩ | ⟨e', he, hr⟩
  · rw [hu] at h; cases h
  · rw [he] at h; cases h; exact hr

/-- The frame of every access: it is the one recorded, and neither ACT nor the model's own fields change. -/
theorem Completes.frame (h : Completes reply s a t) :
    t.made = [a] ∧ t.act = s.act ∧ t.offsets = s.offsets ∧ t.todo = s.todo ∧ t.idx = s.idx := by
  cases h <;> exact ⟨rfl, rfl, rfl, rfl, rfl⟩

end

/-! ### Rejections -/

theorem Rejects.isOperation {i : Instr} {e : OpError} (h : Rejects i e) : i.isOperation = true := by
  cases h <;> rfl

/-- Only a line above 59 and a selector outside the five are rejected; InvalidPriorityValue never occurs (R222). -/
theorem Rejects.bad_operand {i : Instr} {e : OpError} (h : Rejects i e) :
    (∃ line : Byte, e = .invalidLine line ∧ 60 ≤ line.toNat) ∨
      (∃ sel : Half, e = .invalidGroupingMode sel ∧ ¬ IsSelector sel) := by
  cases h with
  | setgrp h => exact .inr ⟨_, rfl, h⟩
  | setpri h _ => exact .inl ⟨_, rfl, h⟩
  | _ h => exact .inl ⟨_, rfl, h⟩

/-! ### Every completed and every refused instruction -/

theorem exec_next_cases {i : Instr} {s t : State} (h : exec i s = .next t) :
    (∃ a, Makes i a ∧ Completes (answer i) s a t) ∨
      (∃ e, Rejects i e ∧ t = { s with resp := .rejected e, made := [] }) := by
  rcases makes_or_rejects i with ⟨a, hm⟩ | ⟨e, hr⟩ | hw
  · exact .inl ⟨a, hm, completes_of_run ((exec_of_makes hm s).symm.trans h)⟩
  · rw [exec_of_rejects hr] at h; cases h; exact .inr ⟨e, hr, rfl⟩
  · rw [exec_of_ill_formed hw] at h; cases h

theorem exec_refused_cases {i : Instr} {s : State} {e : Refusal} (h : exec i s = .refused e) :
    (∃ a, Makes i a ∧ Refuses s a e) ∨ i.wellFormed = false := by
  rcases makes_or_rejects i with ⟨a, hm⟩ | ⟨_, hr⟩ | hw
  · exact .inl ⟨a, hm, refuses_of_run ((exec_of_makes hm s).symm.trans h)⟩
  · rw [exec_of_rejects hr] at h; cases h
  · exact .inr hw

theorem exec_ne_fault (i : Instr) (s : State) (f : Fault) : exec i s ≠ .fault f := by
  rcases makes_or_rejects i with ⟨a, hm⟩ | ⟨_, hr⟩ | hw
  · rw [exec_of_makes hm]
    rcases run_cases (answer i) s a with ⟨_, hu, -⟩ | ⟨_, hu, -⟩
    · rw [hu]; exact nofun
    · rw [hu]; exact nofun
  · rw [exec_of_rejects hr]; exact nofun
  · rw [exec_of_ill_formed hw]; exact nofun

/-! ### Which instructions make which access -/

/-- An instruction that writes `w` to bank `b` of a register is the operation on a line, with the line's mask, or the
raw write (R86). -/
def WritesBank (op : Byte → Instr) (raw : Bank → Word → Instr) (j : Instr) (b : Bank) (w : Word) : Prop :=
  j = raw b w ∨ ∃ (line : Byte) (n : Line), line.toNat = n.val ∧ j = op line ∧ b = lineBank n ∧ w = maskOf n.val

theorem makes_es {j : Instr} {b : Bank} {w : Word} (h : Makes j (.wr32 (.es b) w)) :
    WritesBank .enable .wrEs j b w := by
  cases h with
  | enable h => exact .inr ⟨_, _, h, rfl, rfl, rfl⟩
  | write => exact .inl rfl

theorem makes_ec {j : Instr} {b : Bank} {w : Word} (h : Makes j (.wr32 (.ec b) w)) :
    WritesBank .disable .wrEc j b w := by
  cases h with
  | disable h => exact .inr ⟨_, _, h, rfl, rfl, rfl⟩
  | write => exact .inl rfl

theorem makes_ps {j : Instr} {b : Bank} {w : Word} (h : Makes j (.wr32 (.ps b) w)) :
    WritesBank .setpend .wrPs j b w := by
  cases h with
  | setpend h => exact .inr ⟨_, _, h, rfl, rfl, rfl⟩
  | write => exact .inl rfl

theorem makes_pc {j : Instr} {b : Bank} {w : Word} (h : Makes j (.wr32 (.pc b) w)) :
    WritesBank .clrpend .wrPc j b w := by
  cases h with
  | clrpend h => exact .inr ⟨_, _, h, rfl, rfl, rfl⟩
  | write => exact .inl rfl

theorem makes_wr8 {j : Instr} {k : Line} {v : Byte} (h : Makes j (.wr8 k v)) :
    (∃ line : Byte, line.toNat = k.val ∧ j = .setpri line v) ∨ (∃ n : BitVec 6, n.toNat = k.val ∧ j = .wrPri n v) := by
  cases h with
  | setpri h => exact .inl ⟨_, h, rfl⟩
  | wrPri h => exact .inr ⟨_, h, rfl⟩

theorem makes_wr32_gcfg {j : Instr} {w : Word} (h : Makes j (.wr32 .gcfg w)) :
    j = .wrGcfg w ∨ (∃ sel, IsSelector sel ∧ j = .setgrp sel ∧ w = gword sel) ∨
      (j = .init ∧ w = gword (selectorOf Config.initMode)) := by
  cases h with
  | write => exact .inl rfl
  | setgrp h => exact .inr (.inl ⟨_, h, rfl, rfl⟩)
  | init => exact .inr (.inr ⟨rfl, rfl⟩)

theorem makes_rd32_gcfg {j : Instr} (h : Makes j (.rd32 .gcfg)) : j = .rdGcfg := by
  cases h with
  | read => rfl

/-- A 32-bit read answers its data, but for ISACTIVE, which answers a Boolean of what it reads of AF (R115). -/
theorem makes_rd32_answer {j : Instr} {r : Reg32} (h : Makes j (.rd32 r)) (v : Word) :
    answer j v = .data32 v ∨ (∃ b x, r = .af b ∧ answer j v = .bool x) := by
  cases h with
  | isactive h => exact .inr ⟨_, _, rfl, rfl⟩
  | read => exact .inl (congrFun (answer_readInstr r) v)

/-- Every line has an 8-bit operand and a word of its bank that name it. -/
theorem exists_operands (i : Line) : ∃ (line : Byte) (w : Word), line.toNat = i.val ∧ Names (lineBank i) w i :=
  ⟨BitVec.ofNat 8 i.val, maskOf i.val, by simp; omega, (names_maskOf i i).2 rfl⟩

/-- A next instruction that writes a word naming line `i` to a bank is the operation on that line, or the raw write of
the line's own bank. -/
theorem WritesBank.of_names {op : Byte → Instr} {raw : Bank → Word → Instr} {j : Instr} {b : Bank} {w : Word} {i : Line}
    {next : Option Instr} (h : WritesBank op raw j b w) (hj : next = some j) (hn : Names b w i) :
    ∃ (line : Byte) (w' : Word), line.toNat = i.val ∧ Names (lineBank i) w' i ∧
      (next = some (op line) ∨ next = some (raw (lineBank i) w')) := by
  rcases h with rfl | ⟨line, n, hl, rfl, rfl, rfl⟩
  · have hb : b = lineBank i := Fin.ext hn.1.symm
    subst hb
    obtain ⟨line, -, hl, -⟩ := exists_operands i
    exact ⟨line, w, hl, hn, .inr hj⟩
  · obtain rfl := (names_maskOf n i).1 hn
    exact ⟨line, _, hl, hn, .inl hj⟩

end Sys2Proof.Accesses

/-! SUPPORT. The statements about single instructions that follow from the access each of them makes. -/

namespace Sys2Proof.Instructions

open Sys2Proof.Machine Sys2Proof.Accesses

/-! ### The operations as their accesses -/

/-- Settles O9: the operation is the write-1-to-clear of the line's own mask, which names that line alone. -/
theorem disableClearsOnlyItsLine : Obligations.DisableClearsOnlyItsLine := by
  unfold Obligations.DisableClearsOnlyItsLine
  refine ⟨fun o => LineOps.decode_command_or_line o (by decide) Encoding.decodeCommand_disable, fun line s h => ?_,
    fun line s h => exec_of_rejects (.disable h) s⟩
  obtain ⟨n, hn⟩ := LineOps.exists_line_of_le h
  have hexec := (exec_of_makes (.disable hn) s).trans (writeStep_ec _ _ s)
  rw [hn]
  exact ⟨_, lineBank n, hexec, rfl, LineOps.flag_clearBank_maskOf s.en n, rfl⟩

theorem answer_of_ne_isactive {i : Instr} (h : ∀ line, i ≠ .isactive line) : answer i = .data32 := by
  cases i with
  | isactive line => exact absurd rfl (h line)
  | _ => rfl

theorem answer_ne_rejected (i : Instr) (v : Word) (e : OpError) : answer i v ≠ .rejected e := by
  cases i <;> exact nofun

/-- The raw transaction of an access makes that access and answers what it reads (R150). -/
theorem exec_access_instr (a : Access) (s : State) : exec a.instr s = run .data32 s a := by
  have hentry : ∀ n : Line, (BitVec.ofNat 6 n.val).toNat = n.val := fun n => by simp; omega
  cases a with
  | wr32 r w => exact exec_writeInstr r w s
  | rd32 r => exact exec_readInstr r s
  | wr8 n w => exact exec_of_makes (.wrPri (hentry n) w) s
  | rd8 n => exact exec_of_makes (.rdPri (hentry n)) s

theorem sameBlock_refl (s : State) : SameBlock s s := ⟨rfl, rfl, rfl, rfl, rfl⟩

/-- A register's value depends on the five pieces of state alone (R29). -/
theorem value32_congr {s s' : State} (h : SameBlock s s') (r : Reg32) : value32 r s = value32 r s' := by
  obtain ⟨hen, hpend, hact, -, hmode⟩ := h
  cases r with
  | es b => rw [value32, value32, hen]
  | ec b => rw [value32, value32, hen]
  | ps b => rw [value32, value32, hpend]
  | pc b => rw [value32, value32, hpend]
  | af b => rw [value32, value32, hact]
  | gcfg => rw [value32, value32, hmode]

/-- An access that completes from one block completes from an equal one, with equal blocks after it and, made of what it
reads alike, equal answers. -/
theorem run_of_sameBlock {reply : Word → Response} {s s' t : State} {a : Access} (h : Completes reply s a t)
    (hs : SameBlock s s') (reply' : Word → Response) :
    ∃ t', run reply' s' a = .next t' ∧ SameBlock t t' ∧ t'.made = [a] ∧ (reply = reply' → t.resp = t'.resp) := by
  have hvalue := value32_congr hs
  obtain ⟨hen, hpend, hact, hpri, hmode⟩ := hs
  cases h with
  | es b w =>
    exact ⟨_, writeStep_es b w s', ⟨congrArg (setBank · b w) hen, hpend, hact, hpri, hmode⟩, rfl, fun _ => rfl⟩
  | ec b w =>
    exact ⟨_, writeStep_ec b w s', ⟨congrArg (clearBank · b w) hen, hpend, hact, hpri, hmode⟩, rfl, fun _ => rfl⟩
  | ps b w =>
    exact ⟨_, writeStep_ps b w s', ⟨hen, congrArg (setBank · b w) hpend, hact, hpri, hmode⟩, rfl, fun _ => rfl⟩
  | pc b w =>
    exact ⟨_, writeStep_pc b w s', ⟨hen, congrArg (clearBank · b w) hpend, hact, hpri, hmode⟩, rfl, fun _ => rfl⟩
  | af b w => exact ⟨_, writeStep_af b w s', ⟨hen, hpend, hact, hpri, hmode⟩, rfl, fun _ => rfl⟩
  | wrongKey hk => exact ⟨_, writeStep_gcfg_of_wrong_key hk s', ⟨hen, hpend, hact, hpri, hmode⟩, rfl, fun _ => rfl⟩
  | keyed hk hc => exact ⟨_, writeStep_gcfg_of_clean hk hc s', ⟨hen, hpend, hact, hpri, rfl⟩, rfl, fun _ => rfl⟩
  | wr8 n w =>
    exact ⟨_, writePriStep_eq n w s', ⟨hen, hpend, hact, congrArg (·.set n.val w n.isLt) hpri, hmode⟩, rfl,
      fun _ => rfl⟩
  | rd8 n =>
    exact ⟨_, readPriStep_eq n s', ⟨hen, hpend, hact, hpri, hmode⟩, rfl,
      fun _ => congrArg (fun p : Vector Byte 60 => Response.data8 p[n.val]) hpri⟩
  | read hv =>
    exact ⟨_, readStep_of_value ((hvalue _).symm.trans hv) reply', ⟨hen, hpend, hact, hpri, hmode⟩, rfl,
      fun hr => congrFun hr _⟩

/-- Settles O16: the instruction and the raw transaction of its access run the same access; only ISACTIVE makes another
answer of it. -/
theorem operationIsItsOneTransaction : Obligations.OperationIsItsOneTransaction := by
  unfold Obligations.OperationIsItsOneTransaction
  intro i s t _ h hnot
  rcases exec_next_cases h with ⟨a, hm, hc⟩ | ⟨e, -, rfl⟩
  · obtain ⟨u, hu, hsame, hmade, -⟩ := run_of_sameBlock hc (sameBlock_refl s) .data32
    obtain ⟨hmadet, -⟩ := hc.frame
    refine ⟨a, u, hmadet, (exec_access_instr a s).trans hu, hmade, hsame, fun hi => ?_⟩
    have ht : run .data32 s a = .next t := by rw [← answer_of_ne_isactive hi, ← exec_of_makes hm, h]
    rw [ht] at hu
    cases hu
    rfl
  · exact absurd rfl (hnot e)

/-- Settles O17: no access answers an error, so the instruction was rejected. -/
theorem rejectedOperationHasNoEffect : Obligations.RejectedOperationHasNoEffect := by
  unfold Obligations.RejectedOperationHasNoEffect
  intro i s t e h hresp
  rcases exec_next_cases h with ⟨a, -, hc⟩ | ⟨e', hr, rfl⟩
  · cases hc with
    | read => exact absurd hresp (answer_ne_rejected i _ e)
    | _ => cases hresp
  · cases hresp
    exact ⟨hr.isOperation, rfl, hr.bad_operand⟩

/-- Settles O37: an instruction is one access or a rejection, and neither reads more than the block. -/
theorem noHiddenStateInInstructions : Obligations.NoHiddenStateInInstructions := by
  unfold Obligations.NoHiddenStateInInstructions
  intro i s s' t hs h
  rcases exec_next_cases h with ⟨a, hm, hc⟩ | ⟨e, hr, rfl⟩
  · obtain ⟨t', ht', hsame, hmade, hresp⟩ := run_of_sameBlock hc hs (answer i)
    obtain ⟨hmadet, -⟩ := hc.frame
    exact ⟨t', (exec_of_makes hm s').trans ht', hsame, hresp rfl, hmadet.trans hmade.symm⟩
  · exact ⟨_, exec_of_rejects hr s', hs, rfl, rfl⟩

/-! ### Reads and writes of the banks -/

/-- The read of a bank register whose value is the view of the flags `f`: its header, and what it answers (R30, R91). -/
theorem readBank {r : Bank → Reg32} {f : State → Flags} {c : BitVec 16}
    (hc : ∀ b : Bank, c ||| BitVec.ofNat 16 (4 * b.val) =
      packHeader { wr := false, size := .s32, off := BitVec.ofNat 12 (Config.offsets.reg32 (r b)) })
    (hv : ∀ b s, value32 (r b) s = .ok (bankView (f s) b)) :
    (∀ (b : Bank) (d : Word),
      decode Config.offsets (.bus (c ||| BitVec.ofNat 16 (4 * b.val)) d) = .ok (r b).readInstr) ∧
    (∀ (b : Bank) (s : State), ∃ v : Word, ShowsBank v b (flag (f s)) ∧
      exec (r b).readInstr s = .next { s with resp := .data32 v, made := [.rd32 (r b)] }) := by
  refine ⟨fun b => BusRegs.decode_readHeader BusRegs.wellFormed_offsets (hc b), fun b s => ?_⟩
  rw [exec_readInstr]
  exact BusRegs.readStep_showsBank (hv b s)

/-- Settles O23: the value of EC[b] is the view of bank b of EN. -/
theorem readEnableClearBank : Obligations.ReadEnableClearBank := by
  unfold Obligations.ReadEnableClearBank
  exact readBank (r := .ec) (f := State.en) (by decide) (fun _ _ => rfl)

/-- Settles O24: the value of PS[b] is the view of bank b of PEND. -/
theorem readPendingSetBank : Obligations.ReadPendingSetBank := by
  unfold Obligations.ReadPendingSetBank
  exact readBank (r := .ps) (f := State.pend) (by decide) (fun _ _ => rfl)

/-- Settles O25: the value of PC[b] is the view of bank b of PEND. -/
theorem readPendingClearBank : Obligations.ReadPendingClearBank := by
  unfold Obligations.ReadPendingClearBank
  exact readBank (r := .pc) (f := State.pend) (by decide) (fun _ _ => rfl)

/-- Settles O27: the header is the one the map gives to a write of AF[b], and that write stores nothing. -/
theorem writeActiveBankIsIgnored : Obligations.WriteActiveBankIsIgnored := by
  unfold Obligations.WriteActiveBankIsIgnored
  exact ⟨fun b => BusRegs.decode_writeHeader (r := .af b) BusRegs.wellFormed_offsets (by revert b; decide),
    writeStep_af⟩

/-- Settles O30: the map has no entry there, and the instruction is ill formed. -/
theorem entryNumbersAbove59AreRefused : Obligations.EntryNumbersAbove59AreRefused := by
  unfold Obligations.EntryNumbersAbove59AreRefused
  intro n hn
  have hle : ¬ n.toNat ≤ 59 := by omega
  refine ⟨fun d => ⟨?_, ?_⟩, fun w s => ⟨?_, ?_⟩⟩
  · exact Encoding.decode_entry_above_59 (wr := true) hn (by clear hn hle; revert n; decide) d
  · exact Encoding.decode_entry_above_59 (wr := false) hn (by clear hn hle; revert n; decide) d
  · exact exec_of_ill_formed (i := .wrPri n w) (decide_eq_false hle) s
  · exact exec_of_ill_formed (i := .rdPri n) (decide_eq_false hle) s

/-- Settles O34: the mask's one 1 is at the line's place in its bank. -/
theorem bankSelectorWorkedValues : Obligations.BankSelectorWorkedValues := by
  unfold Obligations.BankSelectorWorkedValues
  refine ⟨fun n => ⟨?_, ?_, lineBank_val n, getLsbD_maskOf n.val⟩, by decide⟩
  · rw [bankOf, bitposOf, Nat.div_add_mod]
  · rw [bitposOf]; omega

/-- The lines that a word names decide its effect: words that name the same lines of a bank have the same one. -/
theorem bankLines_congr {b : Bank} {w w' : Word} (h : ∀ i, Names b w i ↔ Names b w' i) :
    bankLines b w = bankLines b w' := by
  apply BitVec.eq_of_getLsbD_eq
  intro k hk
  have hiff := (flag_bankLines b w ⟨k, hk⟩).trans ((h _).trans (flag_bankLines b w' ⟨k, hk⟩).symm)
  exact Bool.eq_iff_iff.2 hiff

/-- Bits 28..31 of a word are at no line's place in bank 1 (R31). -/
theorem names_bank_one (w : Word) (i : Line) : Names 1 w i ↔ Names 1 (w &&& 0x0FFFFFFF#32) i := by
  have hmask : ∀ k < 28, (0x0FFFFFFF#32).getLsbD k = true := by decide
  refine and_congr_right fun hb => ?_
  have hb1 : i.val / 32 = 1 := hb
  rw [BitVec.getLsbD_and, hmask (i.val % 32) (by omega), Bool.and_true]

/-- Settles O35: the word and the word without its top bits name the same lines. -/
theorem bankOneTopBitsNameNoLine : Obligations.BankOneTopBitsNameNoLine := by
  unfold Obligations.BankOneTopBitsNameNoLine
  intro w s
  have hlines := bankLines_congr (names_bank_one w)
  have hset : ∀ f, setBank f 1 w = setBank f 1 (w &&& 0x0FFFFFFF#32) := fun f => by rw [setBank, setBank, hlines]
  have hclear : ∀ f, clearBank f 1 w = clearBank f 1 (w &&& 0x0FFFFFFF#32) := fun f => by
    rw [clearBank, clearBank, hlines]
  exact ⟨⟨_, _, writeStep_es _ _ s, writeStep_es _ _ s, hset _, rfl, rfl, rfl, rfl⟩,
    ⟨_, _, writeStep_ec _ _ s, writeStep_ec _ _ s, hclear _, rfl, rfl, rfl, rfl⟩,
    ⟨_, _, writeStep_ps _ _ s, writeStep_ps _ _ s, rfl, hset _, rfl, rfl, rfl⟩,
    ⟨_, _, writeStep_pc _ _ s, writeStep_pc _ _ s, rfl, hclear _, rfl, rfl, rfl⟩⟩

theorem setBank_setBank (f : Flags) (b : Bank) (w : Word) : setBank (setBank f b w) b w = setBank f b w := by
  rw [setBank, setBank, BitVec.or_assoc, BitVec.or_self]

theorem clearBank_clearBank (f : Flags) (b : Bank) (w : Word) : clearBank (clearBank f b w) b w = clearBank f b w := by
  rw [clearBank, clearBank, BitVec.and_assoc, BitVec.and_self]

theorem bankLines_zero (b : Bank) : bankLines b 0#32 = 0#60 := by
  simp [bankLines]

theorem setBank_zero (f : Flags) (b : Bank) : setBank f b 0#32 = f := by
  rw [setBank, bankLines_zero, BitVec.or_zero]

theorem clearBank_zero (f : Flags) (b : Bank) : clearBank f b 0#32 = f := by
  rw [clearBank, bankLines_zero, BitVec.not_zero, BitVec.and_allOnes]

/-- Settles O36: setting or clearing the named flags is idempotent, and the zero word names no line. -/
theorem bankWritesAreIdempotent : Obligations.BankWritesAreIdempotent := by
  unfold Obligations.BankWritesAreIdempotent
  intro b w s mk hmk
  simp only [List.mem_cons, List.not_mem_nil, or_false] at hmk
  rcases hmk with rfl | rfl | rfl | rfl
  · refine ⟨⟨_, writeStep_es b w s, ?_⟩, _, writeStep_es b _ s, (setBank_zero _ b).symm, rfl, rfl, rfl, rfl⟩
    exact (writeStep_es b w _).trans (by simp only [setBank_setBank])
  · refine ⟨⟨_, writeStep_ec b w s, ?_⟩, _, writeStep_ec b _ s, (clearBank_zero _ b).symm, rfl, rfl, rfl, rfl⟩
    exact (writeStep_ec b w _).trans (by simp only [clearBank_clearBank])
  · refine ⟨⟨_, writeStep_ps b w s, ?_⟩, _, writeStep_ps b _ s, rfl, (setBank_zero _ b).symm, rfl, rfl, rfl⟩
    exact (writeStep_ps b w _).trans (by simp only [setBank_setBank])
  · refine ⟨⟨_, writeStep_pc b w s, ?_⟩, _, writeStep_pc b _ s, rfl, (clearBank_zero _ b).symm, rfl, rfl, rfl⟩
    exact (writeStep_pc b w _).trans (by simp only [clearBank_clearBank])

/-! ### The grouping configuration -/

/-- Settles O31: the three cases of the unlock check (R163). -/
theorem groupingWriteObeysTheKey : Obligations.GroupingWriteObeysTheKey := by
  unfold Obligations.GroupingWriteObeysTheKey
  refine ⟨BusRegs.decode_writeHeader (r := .gcfg) BusRegs.wellFormed_offsets (by decide), ?_, ?_, ?_⟩
  · exact fun w s hk => writeStep_gcfg_of_wrong_key hk s
  · exact fun w s hk hc => writeStep_gcfg_of_clean hk hc s
  · exact fun w s hk hc => writeStep_gcfg_of_not_clean hk hc s

/-- The fields of the word that `GCFG` reads as (R164). -/
theorem fields_gcfgRead (m : BitVec 3) : (gcfgRead m).extractLsb' 16 16 = Config.keyRead ∧
    (gcfgRead m).extractLsb' 11 5 = 0#5 ∧ (gcfgRead m).extractLsb' 8 3 = m ∧ (gcfgRead m).extractLsb' 0 8 = 0#8 := by
  have hhalf : ∀ m : BitVec 3, (m.setWidth 16 <<< 8).extractLsb' 11 5 = 0#5 ∧
      (m.setWidth 16 <<< 8).extractLsb' 8 3 = m ∧ (m.setWidth 16 <<< 8).extractLsb' 0 8 = 0#8 := by decide
  rw [gcfgRead_eq_append, extractLsb'_high_append, extractLsb'_low_append _ _ 11 5 (by decide),
    extractLsb'_low_append _ _ 8 3 (by decide), extractLsb'_low_append _ _ 0 8 (by decide)]
  exact ⟨rfl, hhalf m⟩

/-- Settles O32: the value read is the key read-back beside the mode's half. -/
theorem groupingReadShowsTheMode : Obligations.GroupingReadShowsTheMode := by
  unfold Obligations.GroupingReadShowsTheMode
  refine ⟨BusRegs.decode_readHeader (r := .gcfg) BusRegs.wellFormed_offsets (by decide), fun m s hm => ?_,
    fun s hm => ?_⟩
  · obtain ⟨hkey, hhigh, hmode, hlow⟩ := fields_gcfgRead m
    exact ⟨gcfgRead m, hkey, hhigh, hmode, hlow, readStep_of_value (value32_gcfg_of_some hm) _⟩
  · exact readStep_of_error (value32_gcfg_of_none hm) _

/-- Settles O33: the second write meets a wrong key whatever the first one left, for the key is no part of the state. -/
theorem noWriteLeavesTheRegisterUnlocked : Obligations.NoWriteLeavesTheRegisterUnlocked := by
  unfold Obligations.NoWriteLeavesTheRegisterUnlocked
  intro first second s t hsecond h
  refine ⟨writeStep_gcfg_of_wrong_key hsecond t, ?_⟩
  rcases writeStep_gcfg_cases h with ⟨hk, rfl⟩ | ⟨hk, -, rfl⟩
  · exact (if_neg hk).symm
  · exact (if_pos hk).symm

end Sys2Proof.Instructions

/-! SUPPORT. What a step can do, said once: an instruction's access, its rejection, or an event, each at the state with
the input taken off. The invariants and the frames of whole steps follow from it. -/

namespace Sys2Proof.Steps

open Sys2Proof.Machine Sys2Proof.Accesses

/-! ### Events (R198 to R200) -/

/-- The event leaves `t`, done or not enabled (R8; log 3). -/
inductive Happens (s : State) : Event → State → Prop
  | irq (i : Line) : Happens s (.irq i) { s with pend := setFlag s.pend i, resp := .done, made := [] }
  | take (w : Line) :
      Happens s .take { s with pend := clearFlag s.pend w, act := setFlag s.act w, resp := .done, made := [] }
  | ret (i : Line) : Happens s (.ret i) { s with act := clearFlag s.act i, resp := .done, made := [] }
  | notEnabled (e : Event) : Happens s e { s with resp := .notEnabled, made := [] }

/-- Every event leaves a next state, but for a TAKE without a defined mode, which is refused (R201). -/
theorem execEvent_cases (e : Event) (s : State) :
    (∃ t, execEvent e s = .next t ∧ Happens s e t) ∨
      (e = .take ∧ ¬ ModeDefined s ∧ execEvent e s = .refused .modeHasNoSplit) := by
  cases e with
  | irq i => exact .inl ⟨_, execIrq_eq i s, .irq i⟩
  | ret i =>
    cases h : s.active i with
    | true => exact .inl ⟨_, execRet_of_active h, .ret i⟩
    | false => exact .inl ⟨_, execRet_of_not_active h, .notEnabled _⟩
  | take =>
    rcases execTake_cases (s := s) rfl with ⟨hm, h⟩ | ⟨_, w, -, -, -, h⟩ | ⟨_, -, -, h⟩
    · exact .inr ⟨rfl, (definedMode_eq_none s).1 hm, h⟩
    · exact .inl ⟨_, h, .take w⟩
    · exact .inl ⟨_, h, .notEnabled _⟩

theorem happens_of_execEvent {e : Event} {s t : State} (h : execEvent e s = .next t) : Happens s e t := by
  rcases execEvent_cases e s with ⟨u, hu, hh⟩ | ⟨-, -, he⟩
  · rw [hu] at h; cases h; exact hh
  · rw [he] at h; cases h

/-! ### The step -/

/-- The state with its next input taken off, the index one further (R22). -/
def advance (s : State) (rest : List Input) : State := { s with todo := rest, idx := s.idx + 1 }

/-- One step from `s` leaves `t`. -/
inductive StepsTo (s t : State) : Prop
  | access {x : Coded} {rest : List Input} {j : Instr} {a : Access} (todo : s.todo = .master x :: rest)
      (next : nextInstr s = some j) (makes : Makes j a) (completes : Completes (answer j) (advance s rest) a t)
  | rejection {x : Coded} {rest : List Input} {j : Instr} {e : OpError} (todo : s.todo = .master x :: rest)
      (rejects : Rejects j e) (eq : t = { advance s rest with resp := .rejected e, made := [] })
  | event {e : Event} {rest : List Input} (todo : s.todo = .event e :: rest) (next : nextEvent s = some e)
      (happens : Happens (advance s rest) e t)

/-- Everything a step with a next state can be. -/
theorem stepsTo_of_step {s t : State} (h : step s = .next t) : StepsTo s t := by
  rcases step_cases s with ⟨-, hs⟩ | ⟨e, rest, todo, next, -, hs⟩ | ⟨x, rest, j, todo, -, next, -, hs⟩ |
    ⟨_, _, _, -, -, -, -, hs⟩
  · rw [hs] at h; cases h
  · exact .event todo next (happens_of_execEvent (hs.symm.trans h))
  · rcases exec_next_cases (hs.symm.trans h) with ⟨a, makes, completes⟩ | ⟨e, rejects, eq⟩
    · exact .access todo next makes completes
    · exact .rejection todo rejects eq
  · rw [hs] at h; cases h

/-- The frame of every step: one input less, the index one further, the offsets as before. -/
theorem StepsTo.frame {s t : State} (h : StepsTo s t) :
    (∃ x, s.todo = x :: t.todo) ∧ t.idx = s.idx + 1 ∧ t.offsets = s.offsets := by
  cases h with
  | access todo _ _ completes =>
    obtain ⟨-, -, hoff, htodo, hidx⟩ := completes.frame
    exact ⟨⟨_, by rw [htodo]; exact todo⟩, hidx, hoff⟩
  | rejection todo _ eq => subst eq; exact ⟨⟨_, todo⟩, rfl, rfl⟩
  | event todo _ happens => cases happens <;> exact ⟨⟨_, todo⟩, rfl, rfl⟩

/-- Settles O6. -/
theorem stepTakesOneInputOff : Obligations.StepTakesOneInputOff := by
  unfold Obligations.StepTakesOneInputOff
  intro s t h
  obtain ⟨htodo, hidx, -⟩ := (stepsTo_of_step h).frame
  exact ⟨hidx, htodo⟩

/-- Settles O60. -/
theorem offsetsAreFixedAndStayDisjoint : Obligations.OffsetsAreFixedAndStayDisjoint := by
  unfold Obligations.OffsetsAreFixedAndStayDisjoint
  intro s t h
  obtain ⟨-, -, hoff⟩ := (stepsTo_of_step h).frame
  exact ⟨hoff, fun hw => hoff.symm ▸ hw⟩

/-! ### One flag of a bank that changes -/

theorem setBank_changes {f : Flags} {b : Bank} {w : Word} {i : Line} (h : flag (setBank f b w) i ≠ flag f i) :
    Names b w i ∧ flag (setBank f b w) i = true := by
  have hn : Names b w i := by_contra fun hn => h (flag_setBank_of_not_names hn)
  exact ⟨hn, flag_setBank_of_names hn⟩

theorem clearBank_changes {f : Flags} {b : Bank} {w : Word} {i : Line} (h : flag (clearBank f b w) i ≠ flag f i) :
    Names b w i ∧ flag (clearBank f b w) i = false := by
  have hn : Names b w i := by_contra fun hn => h (flag_clearBank_of_not_names hn)
  exact ⟨hn, flag_clearBank_of_names hn⟩

theorem setFlag_changes {f : Flags} {j i : Line} (h : flag (setFlag f j) i ≠ flag f i) :
    i = j ∧ flag (setFlag f j) i = true := by
  have hij : i = j := by_contra fun hij => h ((flag_setFlag f j i).trans (if_neg hij))
  exact ⟨hij, (flag_setFlag f j i).trans (if_pos hij)⟩

theorem clearFlag_changes {f : Flags} {j i : Line} (h : flag (clearFlag f j) i ≠ flag f i) :
    i = j ∧ flag (clearFlag f j) i = false := by
  have hij : i = j := by_contra fun hij => h ((flag_clearFlag f j i).trans (if_neg hij))
  exact ⟨hij, (flag_clearFlag f j i).trans (if_pos hij)⟩

/-! ### Where a step stops (R10, R83, R163, R164, R201) -/

/-- Settles O5. -/
theorem stepRunsTheDecodedInstruction : Obligations.StepRunsTheDecodedInstruction := by
  unfold Obligations.StepRunsTheDecodedInstruction
  exact ⟨fun s x rest i todo hd _ => step_of_decoded todo hd, fun s e rest todo => step_of_event todo⟩

/-- The instruction a step runs is decoded from the input at the head of the list. -/
theorem nextInstr_eq_some {s : State} {j : Instr} (h : nextInstr s = some j) :
    ∃ x rest, s.todo = .master x :: rest ∧ decode s.offsets x = .ok j := by
  rcases step_cases s with ⟨todo, -⟩ | ⟨_, _, -, -, hn, -⟩ | ⟨x, rest, k, todo, hd, hn, -, -⟩ | ⟨_, _, _, -, -, hn, -⟩
  · rw [nextInstr, todo] at h; cases h
  · rw [hn] at h; cases h
  · rw [hn] at h; cases h; exact ⟨x, rest, todo, hd⟩
  · rw [hn] at h; cases h

theorem nextEvent_eq_some {s : State} {e : Event} (h : nextEvent s = some e) : ∃ rest, s.todo = .event e :: rest := by
  rcases step_cases s with ⟨todo, -⟩ | ⟨_, rest, todo, hn, -⟩ | ⟨_, _, _, -, -, -, hn, -⟩ | ⟨_, _, _, -, -, -, hn, -⟩
  · rw [nextEvent, todo] at h; cases h
  · rw [hn] at h; cases h; exact ⟨rest, todo⟩
  · rw [hn] at h; cases h
  · rw [hn] at h; cases h

theorem step_of_nextInstr {s : State} {j : Instr} (h : nextInstr s = some j) :
    ∃ rest, step s = exec j (advance s rest) := by
  obtain ⟨x, rest, todo, hd⟩ := nextInstr_eq_some h
  exact ⟨rest, step_of_decoded todo hd⟩

theorem step_of_nextEvent {s : State} {e : Event} (h : nextEvent s = some e) :
    ∃ rest, step s = execEvent e (advance s rest) := by
  obtain ⟨rest, todo⟩ := nextEvent_eq_some h
  exact ⟨rest, step_of_event todo⟩

theorem step_fault_iff (s : State) : (∃ f, step s = .fault f) ↔ s.todo = [] := by
  refine ⟨fun ⟨f, h⟩ => ?_, fun h => ⟨_, step_of_nil h⟩⟩
  rcases step_cases s with ⟨todo, -⟩ | ⟨e, rest, -, -, -, hs⟩ | ⟨_, rest, j, -, -, -, -, hs⟩ | ⟨_, _, _, -, -, -, -, hs⟩
  · exact todo
  · rcases execEvent_cases e (advance s rest) with ⟨_, he, -⟩ | ⟨-, -, he⟩
    · cases (hs.symm.trans h).symm.trans he
    · cases (hs.symm.trans h).symm.trans he
  · exact absurd (hs.symm.trans h) (exec_ne_fault j _ f)
  · cases hs.symm.trans h

/-- What a refused instruction that decodes can be: the two refusals of `GCFG`. The grouping words of the operations are
clean, so the writes of SETGRP and INIT are not among them. -/
theorem refused_exec {j : Instr} {s : State} {r : Refusal} (hw : j.wellFormed = true) (h : exec j s = .refused r) :
    (∃ w, j = .wrGcfg w ∧ w.extractLsb' 16 16 = Config.unlockKey ∧ ¬ IsClean w) ∨ (j = .rdGcfg ∧ s.mode = none) := by
  rcases exec_refused_cases h with ⟨a, hm, hr⟩ | hwf
  · cases hr with
    | noMode hmode => exact .inr ⟨makes_rd32_gcfg hm, hmode⟩
    | @notClean w hk hc =>
      rcases makes_wr32_gcfg hm with rfl | ⟨sel, hsel, -, rfl⟩ | ⟨-, rfl⟩
      · exact .inl ⟨w, rfl, hk, hc⟩
      · exact absurd (isClean_gword hsel) hc
      · exact absurd (isClean_gword (isSelector_selectorOf _)) hc
  · rw [hw] at hwf; cases hwf

theorem execTake_of_not_modeDefined {s : State} (h : ¬ ModeDefined s) : execTake s = .refused .modeHasNoSplit := by
  have hm := (definedMode_eq_none s).2 h
  rcases execTake_cases (s := s) rfl with ⟨-, he⟩ | ⟨_, _, hm', -⟩ | ⟨_, hm', -⟩
  · exact he
  · rw [hm] at hm'; cases hm'
  · rw [hm] at hm'; cases hm'

/-- Settles O7: each way a step can go, and for the converse each of the four stops. -/
theorem stopsAreExactlyTheSpecsRefusals : Obligations.StopsAreExactlyTheSpecsRefusals := by
  unfold Obligations.StopsAreExactlyTheSpecsRefusals
  intro s
  refine ⟨step_fault_iff s, fun ⟨r, h⟩ => ?_, ?_⟩
  · rcases step_cases s with ⟨-, hs⟩ | ⟨e, rest, -, next, -, hs⟩ | ⟨x, rest, j, -, hd, next, -, hs⟩ |
      ⟨x, rest, e, todo, hd, -, -, -⟩
    · cases hs.symm.trans h
    · rcases execEvent_cases e (advance s rest) with ⟨_, he, -⟩ | ⟨rfl, hmode, -⟩
      · cases (hs.symm.trans h).symm.trans he
      · exact .inr (.inr (.inr ⟨next, hmode⟩))
    · rcases refused_exec (Encoding.wellFormed_of_decode hd) (hs.symm.trans h) with ⟨w, rfl, hk, hc⟩ | ⟨rfl, hmode⟩
      · exact .inr (.inl ⟨w, next, hk, hc⟩)
      · exact .inr (.inr (.inl ⟨next, hmode⟩))
    · exact .inl ⟨x, rest, e, todo, hd⟩
  · rintro (⟨x, rest, e, todo, hd⟩ | ⟨w, next, hk, hc⟩ | ⟨next, hmode⟩ | ⟨next, hmode⟩)
    · exact ⟨_, step_of_error todo hd⟩
    · obtain ⟨rest, hs⟩ := step_of_nextInstr next
      exact ⟨_, hs.trans (writeStep_gcfg_of_not_clean hk hc _)⟩
    · obtain ⟨rest, hs⟩ := step_of_nextInstr next
      exact ⟨_, hs.trans (readStep_of_error (value32_gcfg_of_none (s := advance s rest) hmode) _)⟩
    · obtain ⟨rest, hs⟩ := step_of_nextEvent next
      exact ⟨_, hs.trans (execTake_of_not_modeDefined hmode)⟩

/-! ### What changes EN, PEND, ACT, PRI and MODE -/

/-- Settles O38: of the accesses only the writes of ES and EC change an enable flag. -/
theorem onlyEnableAccessesChangeEnable : Obligations.OnlyEnableAccessesChangeEnable := by
  unfold Obligations.OnlyEnableAccessesChangeEnable
  intro s t i h hne
  cases stepsTo_of_step h with
  | rejection _ _ eq => subst eq; exact absurd rfl hne
  | event _ _ happens => cases happens <;> exact absurd rfl hne
  | access _ next makes completes =>
    cases completes with
    | es b w =>
      obtain ⟨hn, hset⟩ := setBank_changes hne
      obtain ⟨line, w', hl, hw, hj⟩ := (makes_es makes).of_names next hn
      exact ⟨line, w', hl, hw, .inl ⟨hset, hj⟩⟩
    | ec b w =>
      obtain ⟨hn, hclear⟩ := clearBank_changes hne
      obtain ⟨line, w', hl, hw, hj⟩ := (makes_ec makes).of_names next hn
      exact ⟨line, w', hl, hw, .inr ⟨hclear, hj⟩⟩
    | _ => exact absurd rfl hne

/-- Settles O39: of the accesses only the writes of PS and PC change a pending flag, of the events only IRQ and TAKE. -/
theorem onlyPendingAccessesAndEventsChangePending : Obligations.OnlyPendingAccessesAndEventsChangePending := by
  unfold Obligations.OnlyPendingAccessesAndEventsChangePending
  intro s t i h hne
  cases stepsTo_of_step h with
  | rejection _ _ eq => subst eq; exact absurd rfl hne
  | event _ next happens =>
    obtain ⟨line, w, hl, hw⟩ := exists_operands i
    refine ⟨line, w, hl, hw, ?_⟩
    cases happens with
    | irq j =>
      obtain ⟨rfl, hset⟩ := setFlag_changes hne
      exact .inl ⟨hset, .inr (.inr next)⟩
    | take v =>
      obtain ⟨-, hclear⟩ := clearFlag_changes hne
      exact .inr ⟨hclear, .inr (.inr next)⟩
    | _ => exact absurd rfl hne
  | access _ next makes completes =>
    cases completes with
    | ps b w =>
      obtain ⟨hn, hset⟩ := setBank_changes hne
      obtain ⟨line, w', hl, hw, hj⟩ := (makes_ps makes).of_names next hn
      exact ⟨line, w', hl, hw, .inl ⟨hset, hj.imp_right .inl⟩⟩
    | pc b w =>
      obtain ⟨hn, hclear⟩ := clearBank_changes hne
      obtain ⟨line, w', hl, hw, hj⟩ := (makes_pc makes).of_names next hn
      exact ⟨line, w', hl, hw, .inr ⟨hclear, hj.imp_right .inl⟩⟩
    | _ => exact absurd rfl hne

/-- Settles O40: no access changes an active flag, of the events only TAKE and RET do. -/
theorem onlyTakeAndRetChangeActive : Obligations.OnlyTakeAndRetChangeActive := by
  unfold Obligations.OnlyTakeAndRetChangeActive
  intro s t i h hne
  cases stepsTo_of_step h with
  | rejection _ _ eq => subst eq; exact absurd rfl hne
  | access _ _ _ completes =>
    obtain ⟨-, hact, -⟩ := completes.frame
    exact absurd (congrArg (flag · i) hact) hne
  | event _ next happens =>
    cases happens with
    | take w =>
      obtain ⟨-, hset⟩ := setFlag_changes hne
      exact .inl ⟨hset, next⟩
    | ret j =>
      obtain ⟨rfl, hclear⟩ := clearFlag_changes hne
      exact .inr ⟨hclear, next⟩
    | _ => exact absurd rfl hne

/-- An access after which a priority byte differs is the 8-bit write of that entry with the byte that it now holds. -/
theorem wr8_of_prio_changes {reply : Word → Response} {s t : State} {a : Access} {i : Line}
    (h : Completes reply s a t) (hne : t.prio i ≠ s.prio i) : a = .wr8 i (t.prio i) := by
  cases h with
  | wr8 n w =>
    have hprio := State.withPrio_prio s n w i
    by_cases hi : i = n
    · subst hi
      rw [if_pos rfl] at hprio
      exact congrArg (Access.wr8 i) hprio.symm
    · exact absurd (hprio.trans (if_neg hi)) hne
  | _ => exact absurd rfl hne

/-- Settles O41: of the accesses only the 8-bit write changes a priority byte, that of its own entry. -/
theorem onlyPriorityWritesChangePriorities : Obligations.OnlyPriorityWritesChangePriorities := by
  unfold Obligations.OnlyPriorityWritesChangePriorities
  intro s t i h hne
  cases stepsTo_of_step h with
  | rejection _ _ eq => subst eq; exact absurd rfl hne
  | event _ _ happens => cases happens <;> exact absurd rfl hne
  | access _ next makes completes =>
    obtain rfl := wr8_of_prio_changes completes hne
    rcases makes_wr8 makes with ⟨line, hl, rfl⟩ | ⟨n, hn, rfl⟩
    · exact .inl ⟨line, hl, next⟩
    · exact .inr ⟨n, hn, next⟩

theorem extractLsb'_mode_gword (sel : Half) : (gword sel).extractLsb' 8 3 = sel.extractLsb' 8 3 := by
  rw [gword_eq_append, extractLsb'_low_append _ _ 8 3 (by decide)]

/-- Settles O42: of the accesses only a key-matched clean write of `GCFG` changes MODE. -/
theorem onlyKeyedWritesChangeMode : Obligations.OnlyKeyedWritesChangeMode := by
  unfold Obligations.OnlyKeyedWritesChangeMode
  intro s t h hne
  cases stepsTo_of_step h with
  | rejection _ _ eq => subst eq; exact absurd rfl hne
  | event _ _ happens => cases happens <;> exact absurd rfl hne
  | access _ next makes completes =>
    cases completes with
    | @keyed w hk hc =>
      rcases makes_wr32_gcfg makes with rfl | ⟨sel, hsel, rfl, rfl⟩ | ⟨rfl, rfl⟩
      · exact .inl ⟨w, next, hk, hc, rfl⟩
      · exact .inr (.inl ⟨sel, next, hsel, congrArg some (extractLsb'_mode_gword sel)⟩)
      · exact .inr (.inr ⟨next, congrArg some (extractLsb'_mode_gword _)⟩)
    | _ => exact absurd rfl hne

/-! ### The invariants -/

/-- Settles O43: each of the three changes of MODE that O42 leaves gives it a value. -/
theorem modeNeverReturnsToNoValue : Obligations.ModeNeverReturnsToNoValue := by
  unfold Obligations.ModeNeverReturnsToNoValue
  intro s t hs h
  by_cases hm : t.mode = s.mode
  · exact hm ▸ hs
  · rcases onlyKeyedWritesChangeMode s t h hm with ⟨_, -, -, -, ht⟩ | ⟨_, -, -, ht⟩ | ⟨-, ht⟩
    · exact ht ▸ rfl
    · exact ht ▸ rfl
    · exact ht ▸ rfl

/-- The mode in a selector's bits 10:8 is one of 3..7 (R89). -/
theorem mode_of_isSelector {sel : Half} (h : IsSelector sel) : 3 ≤ (sel.extractLsb' 8 3).toNat := by
  rcases h with rfl | rfl | rfl | rfl | rfl <;> decide

theorem modeDefined_of_selector {t : State} {sel : Half} (h : IsSelector sel)
    (ht : t.mode = some (sel.extractLsb' 8 3)) : ModeDefined t := ⟨_, ht, mode_of_isSelector h⟩

/-- Settles O44: by O42 only a write of one of the five selectors is left to change MODE. -/
theorem modeStaysDefinedWithoutRawGroupingWrites : Obligations.ModeStaysDefinedWithoutRawGroupingWrites := by
  unfold Obligations.ModeStaysDefinedWithoutRawGroupingWrites
  rintro s t ⟨hmode, hguard⟩ h
  obtain ⟨⟨y, htodo⟩, -, hoff⟩ := (stepsTo_of_step h).frame
  refine ⟨?_, fun x hx => ?_⟩
  · by_cases hm : t.mode = s.mode
    · obtain ⟨m, hs, h3⟩ := hmode
      exact ⟨m, hm.trans hs, h3⟩
    · rcases onlyKeyedWritesChangeMode s t h hm with ⟨w, hn, -⟩ | ⟨sel, -, hsel, ht⟩ | ⟨-, ht⟩
      · obtain ⟨x, rest, hx, hd⟩ := nextInstr_eq_some hn
        exact absurd hd (hguard x (hx ▸ List.mem_cons_self) w)
      · exact modeDefined_of_selector hsel ht
      · exact modeDefined_of_selector (isSelector_selectorOf _) ht
  · rw [hoff]
    exact hguard x (htodo ▸ List.mem_cons_of_mem y hx)

/-- Settles O45: by O40 only a TAKE makes a line active. -/
theorem nothingIsActiveWithoutTake : Obligations.NothingIsActiveWithoutTake := by
  unfold Obligations.NothingIsActiveWithoutTake
  rintro s t ⟨hact, htake⟩ h
  obtain ⟨⟨y, htodo⟩, -⟩ := (stepsTo_of_step h).frame
  refine ⟨fun i => ?_, fun hx => htake (htodo ▸ List.mem_cons_of_mem y hx)⟩
  by_cases hi : t.active i = s.active i
  · exact hi.trans (hact i)
  · rcases onlyTakeAndRetChangeActive s t i h hi with ⟨-, hn⟩ | ⟨hf, -⟩
    · obtain ⟨rest, hrest⟩ := nextEvent_eq_some hn
      exact absurd (hrest ▸ List.mem_cons_self) htake
    · exact hf

/-! ### Every step is accounted for -/

/-- A state whose latest step made no access is accounted for as soon as its answer fits. -/
theorem accounted_of_no_access {t : State} (hmade : t.made = []) (hfits : AnswerFits t) : Accounted t :=
  ⟨hfits, by simp [hmade], by simp [hmade]⟩

theorem accounted_of_access {t : State} {a : Access} (hmade : t.made = [a]) (hfits : AnswerFits t)
    (heff : TookEffect t a) : Accounted t :=
  ⟨hfits, by simp [hmade], by simp [hmade, heff]⟩

theorem accounted_of_rejects {j : Instr} {e : OpError} (h : Rejects j e) (s : State) :
    Accounted { s with resp := .rejected e, made := [] } := by
  refine accounted_of_no_access rfl ?_
  rcases h.bad_operand with ⟨line, rfl, hl⟩ | ⟨sel, rfl, hs⟩
  · exact ⟨rfl, hl⟩
  · exact ⟨rfl, hs⟩

theorem accounted_of_happens {s t : State} {e : Event} (h : Happens s e t) : Accounted t := by
  cases h with
  | notEnabled => exact accounted_of_no_access rfl rfl
  | _ => exact accounted_of_no_access rfl (Nat.zero_le 1)

/-- The access that an instruction completes by has taken effect, and its answer is the one for that access. -/
theorem accounted_of_completes {j : Instr} {a : Access} {s t : State} (hm : Makes j a)
    (h : Completes (answer j) s a t) : Accounted t := by
  have fits_write : ∀ u : State, u.resp = .done → u.made = [a] → AnswerFits u := fun u hr hu => by
    simp [AnswerFits, hr, hu]
  cases h with
  | es b w => exact accounted_of_access rfl (fits_write _ rfl rfl) fun _ => flag_setBank_of_names
  | ec b w => exact accounted_of_access rfl (fits_write _ rfl rfl) fun _ => flag_clearBank_of_names
  | ps b w => exact accounted_of_access rfl (fits_write _ rfl rfl) fun _ => flag_setBank_of_names
  | pc b w => exact accounted_of_access rfl (fits_write _ rfl rfl) fun _ => flag_clearBank_of_names
  | af b w => exact accounted_of_access rfl (fits_write _ rfl rfl) trivial
  | wrongKey hk => exact accounted_of_access rfl (fits_write _ rfl rfl) fun hk' => absurd hk' hk
  | keyed hk hc => exact accounted_of_access rfl (fits_write _ rfl rfl) fun _ => ⟨hc, rfl⟩
  | wr8 n w =>
    exact accounted_of_access rfl (fits_write _ rfl rfl) ((State.withPrio_prio s n w n).trans (if_pos rfl))
  | rd8 n => exact accounted_of_access rfl ⟨n, rfl⟩ rfl
  | @read r v _ =>
    refine accounted_of_access rfl ?_ trivial
    rcases makes_rd32_answer hm v with hr | ⟨b, x, rfl, hr⟩
    · rw [hr]; exact ⟨r, rfl⟩
    · rw [hr]; exact ⟨b, rfl⟩

/-- Settles O46: whatever the state before held, the step itself accounts for its answer and its access. -/
theorem everyStepIsAccountedFor : Obligations.EveryStepIsAccountedFor := by
  unfold Obligations.EveryStepIsAccountedFor
  intro s t _ h
  cases stepsTo_of_step h with
  | access _ _ makes completes => exact accounted_of_completes makes completes
  | rejection _ rejects eq => exact eq ▸ accounted_of_rejects rejects _
  | event _ _ happens => exact accounted_of_happens happens

/-! ### Reset (R33 to R35) -/

/-- No flag is set in the flags after reset. -/
theorem flag_zero (i : Line) : flag 0#60 i = false := BitVec.getLsbD_zero

/-- Settles O47. -/
theorem resetSatisfiesTheInvariants : Obligations.ResetSatisfiesTheInvariants := by
  unfold Obligations.ResetSatisfiesTheInvariants
  exact ⟨fun o => ⟨accounted_of_no_access rfl rfl, ⟨flag_zero, List.not_mem_nil⟩, rfl⟩, rfl, BusRegs.wellFormed_offsets⟩

/-- Settles O48: ISACTIVE answers the line's flag, and no flag is set. -/
theorem resetLeavesFlagsAndPrioritiesZero : Obligations.ResetLeavesFlagsAndPrioritiesZero := by
  unfold Obligations.ResetLeavesFlagsAndPrioritiesZero
  intro o
  refine ⟨fun i => ⟨flag_zero i, flag_zero i, flag_zero i, Vector.getElem_replicate i.isLt⟩, rfl, fun line hl => ?_⟩
  obtain ⟨n, hn⟩ := LineOps.exists_line_of_le hl
  exact ⟨_, LineOps.exec_isactive_of_line hn _, congrArg Response.bool (flag_zero n)⟩

end Sys2Proof.Steps

/-! SUPPORT. The priority encoder (43_priority_encoder.md): the split of a priority byte as arithmetic on its upper four
bits, the order on lines that it gives, the winner, and what TAKE, IRQ and RET do with it. -/

namespace Sys2Proof.Encoder

open Sys2Proof.Machine

/-! ### The split of a priority byte (R190) -/

theorem toNat_grp (m : GroupMode) (p : Byte) : (grp m p).toNat = p.toNat / 2 ^ ((modeBits m).toNat + 1) := by
  rw [grp, BitVec.toNat_ushiftRight, Nat.shiftRight_eq_div_pow]

theorem toNat_sub (m : GroupMode) (p : Byte) : (sub m p).toNat = p.toNat / 16 % 2 ^ subBits m := by
  have hmask : ((1#8 <<< subBits m) - 1#8).toNat = 2 ^ subBits m - 1 := by cases m <;> rfl
  rw [sub, BitVec.toNat_and, hmask, Nat.and_two_pow_sub_one_eq_mod, BitVec.toNat_ushiftRight,
    Nat.shiftRight_eq_div_pow]

theorem toNat_key4 (p : Byte) : (key4 p).toNat = p.toNat / 16 := by
  have := p.isLt
  rw [key4, BitVec.extractLsb'_toNat, Nat.shiftRight_eq_div_pow]
  omega

/-- The group is the key without its sub bits. -/
theorem toNat_grp_eq_key4 (m : GroupMode) (p : Byte) : (grp m p).toNat = (key4 p).toNat / 2 ^ subBits m := by
  have hbits : 2 ^ ((modeBits m).toNat + 1) = 16 * 2 ^ subBits m := by cases m <;> rfl
  rw [toNat_grp, toNat_key4, hbits, Nat.div_div_eq_div_mul]

/-- The sub-priority is the key's sub bits. -/
theorem toNat_sub_eq_key4 (m : GroupMode) (p : Byte) : (sub m p).toNat = (key4 p).toNat % 2 ^ subBits m := by
  rw [toNat_sub, toNat_key4]

/-- Settles O49: the two parts are the quotient and the remainder of the key by a power of two. -/
theorem splitOfAPriorityByte : Obligations.SplitOfAPriorityByte := by
  unfold Obligations.SplitOfAPriorityByte
  intro m p
  have hshift : (modeBits m).toNat + 1 = 8 - groupBits m := by cases m <;> rfl
  have hjoin : (key4 p).toNat = (grp m p).toNat * 2 ^ subBits m + (sub m p).toNat := by
    rw [toNat_grp_eq_key4, toNat_sub_eq_key4, Nat.div_add_mod']
  have hlt : (grp m p).toNat < 2 ^ groupBits m := by
    have hpow : 2 ^ subBits m * 2 ^ groupBits m = 2 ^ 4 := by cases m <;> rfl
    rw [toNat_grp_eq_key4]
    exact Nat.div_lt_of_lt_mul (hpow ▸ (key4 p).isLt)
  exact ⟨by cases m <;> rfl, by cases m <;> rfl, hshift ▸ toNat_grp m p, hlt, toNat_sub m p, hjoin⟩

/-- A composed byte is its key shifted over four zero bits (R133). -/
theorem toNat_prienc {m : GroupMode} {g s : Byte} (hg : g.toNat < 2 ^ groupBits m) (hs : s.toNat < 2 ^ subBits m) :
    (prienc m g s).toNat = (g.toNat * 2 ^ subBits m + s.toNat) * 16 := by
  have hpow : 2 ^ groupBits m * 2 ^ subBits m = 16 := by cases m <;> rfl
  have hlt : g.toNat * 2 ^ subBits m + s.toNat < 16 := by
    have hmul := Nat.mul_le_mul_right (2 ^ subBits m) (Nat.succ_le_of_lt hg)
    rw [hpow, Nat.succ_mul] at hmul
    omega
  have hhigh : (g <<< subBits m).toNat = g.toNat * 2 ^ subBits m := by
    rw [BitVec.toNat_shiftLeft, Nat.shiftLeft_eq, Nat.mod_eq_of_lt (by omega)]
  have hor : ((g <<< subBits m) ||| s).toNat = g.toNat * 2 ^ subBits m + s.toNat := by
    rw [BitVec.toNat_or, hhigh, Nat.mul_comm, Nat.two_pow_add_eq_or_of_lt hs]
  rw [prienc, BitVec.toNat_shiftLeft, hor, Nat.shiftLeft_eq, Nat.mod_eq_of_lt (by omega)]

/-- Settles O50: quotient and remainder of the composed key. -/
theorem composedPriorityByteSplitsBack : Obligations.ComposedPriorityByteSplitsBack := by
  unfold Obligations.ComposedPriorityByteSplitsBack
  intro m g s hg hs
  have hp := toNat_prienc hg hs
  have hkey : (key4 (prienc m g s)).toNat = g.toNat * 2 ^ subBits m + s.toNat := by
    rw [toNat_key4, hp, Nat.mul_div_cancel _ (by decide)]
  refine ⟨BitVec.eq_of_toNat_eq ?_, BitVec.eq_of_toNat_eq ?_, BitVec.eq_of_toNat_eq ?_⟩
  · rw [toNat_grp_eq_key4, hkey, Nat.mul_comm, Nat.mul_add_div (Nat.two_pow_pos _), Nat.div_eq_of_lt hs, Nat.add_zero]
  · rw [toNat_sub_eq_key4, hkey, Nat.mul_comm, Nat.mul_add_mod, Nat.mod_eq_of_lt hs]
  · rw [BitVec.extractLsb'_toNat, hp]
    exact Nat.mul_mod_left _ 16

/-! ### The order on lines (R192) -/

/-- Whatever the mode, the order on lines is that of their keys, then of their numbers. -/
theorem lexBefore_iff (m : GroupMode) (s : State) (a b : Line) : LexBefore m s a b ↔
    (key4 (s.prio a)).toNat < (key4 (s.prio b)).toNat ∨
      ((key4 (s.prio a)).toNat = (key4 (s.prio b)).toNat ∧ a.val < b.val) := by
  rw [LexBefore]
  simp only [toNat_grp_eq_key4, toNat_sub_eq_key4]
  have hpow : 2 ^ subBits m = 1 ∨ 2 ^ subBits m = 2 ∨ 2 ^ subBits m = 4 ∨ 2 ^ subBits m = 8 ∨ 2 ^ subBits m = 16 := by
    cases m <;> decide
  rcases hpow with h | h | h | h | h <;> rw [h] <;> omega

theorem moreUrgent_iff (m : GroupMode) (s : State) (a b : Line) : moreUrgent m s a b = true ↔ LexBefore m s a b := by
  simp only [moreUrgent, LexBefore, Bool.or_eq_true, Bool.and_eq_true, decide_eq_true_eq, beq_iff_eq, BitVec.toNat_inj]

theorem lexBefore_irrefl (m : GroupMode) (s : State) (a : Line) : ¬ LexBefore m s a a := by
  rw [lexBefore_iff]; omega

theorem lexBefore_trans {m : GroupMode} {s : State} {a b c : Line} (hab : LexBefore m s a b) (hbc : LexBefore m s b c) :
    LexBefore m s a c := by
  rw [lexBefore_iff] at *; omega

theorem lexBefore_asymm {m : GroupMode} {s : State} {a b : Line} (h : LexBefore m s a b) : ¬ LexBefore m s b a :=
  fun h' => lexBefore_irrefl m s a (lexBefore_trans h h')

theorem lexBefore_total (m : GroupMode) (s : State) {a b : Line} (h : a ≠ b) :
    LexBefore m s a b ∨ LexBefore m s b a := by
  have hval : a.val ≠ b.val := fun e => h (Fin.ext e)
  rw [lexBefore_iff, lexBefore_iff]; omega

/-- Settles O51: the order is that of the keys and the line numbers. -/
theorem urgencyIsAStrictTotalOrder : Obligations.UrgencyIsAStrictTotalOrder := by
  unfold Obligations.UrgencyIsAStrictTotalOrder
  intro m s a b c
  refine ⟨moreUrgent_iff m s a b, ?_, ?_, fun hab => ?_⟩
  · rw [← Bool.not_eq_true, moreUrgent_iff]
    exact lexBefore_irrefl m s a
  · simp only [moreUrgent_iff]
    exact lexBefore_trans
  · simp only [moreUrgent_iff]
    exact ⟨lexBefore_asymm, (lexBefore_total m s hab).resolve_right⟩

/-! ### The winner (R193, R194) -/

theorem mostUrgent_eq_none_iff {m : GroupMode} {s : State} {l : List Line} : mostUrgent m s l = none ↔ l = [] := by
  cases l with
  | nil => exact ⟨fun _ => rfl, fun _ => rfl⟩
  | cons i rest =>
    rw [mostUrgent]
    cases mostUrgent m s rest with
    | none => simp
    | some j => cases h : moreUrgent m s j i <;> simp [h]

/-- The most urgent line of a list is in it and before every other. -/
theorem mostUrgent_spec {m : GroupMode} {s : State} {l : List Line} {w : Line} (h : mostUrgent m s l = some w) :
    w ∈ l ∧ ∀ j ∈ l, j ≠ w → LexBefore m s w j := by
  induction l generalizing w with
  | nil => cases h
  | cons i rest ih =>
    rw [mostUrgent] at h
    cases hr : mostUrgent m s rest with
    | none =>
      rw [hr] at h
      cases h
      rw [mostUrgent_eq_none_iff.1 hr]
      simp
    | some j =>
      obtain ⟨hj, hbefore⟩ := ih hr
      simp only [hr] at h
      by_cases hu : moreUrgent m s j i = true
      · rw [if_pos hu] at h
        cases h
        refine ⟨List.mem_cons_of_mem i hj, fun k hk hne => ?_⟩
        rcases List.mem_cons.1 hk with rfl | hk
        · exact (moreUrgent_iff m s w k).1 hu
        · exact hbefore k hk hne
      · rw [if_neg hu] at h
        cases h
        rw [moreUrgent_iff] at hu
        refine ⟨List.mem_cons_self, fun k hk hne => ?_⟩
        have hk : k ∈ rest := (List.mem_cons.1 hk).resolve_left hne
        by_cases hkj : k = j
        · subst hkj
          exact (lexBefore_total m s hne).resolve_left hu
        · by_cases hij : i = j
          · exact hij ▸ hbefore k hk hkj
          · exact lexBefore_trans ((lexBefore_total m s hij).resolve_right hu) (hbefore k hk hkj)

theorem winner_eq_none_iff (m : GroupMode) (s : State) : winner m s = none ↔ ∀ i, ¬ candidate s i = true := by
  rw [winner, mostUrgent_eq_none_iff, List.eq_nil_iff_forall_not_mem]
  simp only [mem_candidates]

/-- The winner is the candidate before every other candidate. -/
theorem winner_eq_some_iff (m : GroupMode) (s : State) (w : Line) : winner m s = some w ↔
    candidate s w = true ∧ ∀ j, candidate s j = true → j ≠ w → LexBefore m s w j := by
  have spec : ∀ {v}, winner m s = some v →
      candidate s v = true ∧ ∀ j, candidate s j = true → j ≠ v → LexBefore m s v j := by
    intro v h
    have := mostUrgent_spec h
    simpa only [mem_candidates] using this
  refine ⟨spec, fun ⟨hw, hbefore⟩ => ?_⟩
  cases hv : winner m s with
  | none => exact absurd hw ((winner_eq_none_iff m s).1 hv w)
  | some v =>
    obtain ⟨hcand, hfirst⟩ := spec hv
    by_cases hvw : v = w
    · rw [hvw]
    · exact absurd (hfirst w hw (Ne.symm hvw)) (lexBefore_asymm (hbefore v hcand hvw))

/-- Settles O52. -/
theorem winnerIsTheMostUrgentCandidate : Obligations.WinnerIsTheMostUrgentCandidate := by
  unfold Obligations.WinnerIsTheMostUrgentCandidate
  intro m s
  have hcand : ∀ i, candidate s i = true ↔ s.enabled i = true ∧ s.pending i = true := fun i => by
    rw [candidate, Bool.and_eq_true]
  refine ⟨?_, fun w => ?_⟩
  · rw [winner_eq_none_iff]
    simp only [hcand]
  · rw [winner_eq_some_iff]
    simp only [hcand, and_assoc, and_imp]

/-- The winner in terms that no mode enters. -/
theorem winner_eq_some_iff_key4 (m : GroupMode) (s : State) (w : Line) : winner m s = some w ↔
    candidate s w = true ∧ ∀ j, candidate s j = true → j ≠ w →
      (key4 (s.prio w)).toNat < (key4 (s.prio j)).toNat ∨ (key4 (s.prio w) = key4 (s.prio j) ∧ w.val < j.val) := by
  simp only [winner_eq_some_iff, lexBefore_iff, BitVec.toNat_inj]

/-- Settles O53: the order of the candidates is that of their keys under every mode. -/
theorem winnerDoesNotDependOnTheMode : Obligations.WinnerDoesNotDependOnTheMode := by
  unfold Obligations.WinnerDoesNotDependOnTheMode
  intro m m' s
  refine ⟨Option.ext fun w => ?_, winner_eq_some_iff_key4 m s⟩
  rw [winner_eq_some_iff_key4, winner_eq_some_iff_key4]

/-! ### Preemption, the outputs, and the events (R195 to R201) -/

/-- Settles O56: no group is below itself, and in mode 7 every group is 0. -/
theorem nothingPreemptsItselfOrWithoutGroups : Obligations.NothingPreemptsItselfOrWithoutGroups := by
  unfold Obligations.NothingPreemptsItselfOrWithoutGroups
  have blocked : ∀ (m : GroupMode) (s : State) (w j : Line), s.active j = true →
      ¬ (grp m (s.prio w)).toNat < (grp m (s.prio j)).toNat → mayPreempt m s w = false := by
    intro m s w j hj hlt
    rw [← Bool.not_eq_true, mayPreempt_iff]
    exact fun h => hlt (h j hj)
  refine ⟨fun m s w hw hact => ?_, fun s j hact => ?_⟩
  · simp only [preemptOk, hw]
    exact blocked m s w w hact (lt_irrefl _)
  · rw [preemptOk]
    cases winner .g0s4 s with
    | none => rfl
    | some w =>
      refine blocked .g0s4 s w j hact ?_
      have hgrp : (grp .g0s4 (s.prio j)).toNat = 0 := by
        rw [toNat_grp]
        exact Nat.div_eq_of_lt (s.prio j).isLt
      omega

theorem preemptOk_iff (m : GroupMode) (s : State) : preemptOk m s = true ↔
    ∃ w, winner m s = some w ∧ ∀ j, s.active j = true → (grp m (s.prio w)).toNat < (grp m (s.prio j)).toNat := by
  rw [preemptOk]
  cases hw : winner m s with
  | none => simp
  | some w => simp [mayPreempt_iff]

theorem outputs_of_definedMode {s : State} {m : GroupMode} (h : definedMode s = some m) : outputs s =
    some { irqValid := preemptOk m s, irqLine := winner m s, irqPending := (winner m s).isSome } := by
  rw [outputs, h]

theorem outputs_of_no_definedMode {s : State} (h : definedMode s = none) : outputs s = none := by
  rw [outputs, h]

/-- Settles O55. -/
theorem outputsFollowTheState : Obligations.OutputsFollowTheState := by
  unfold Obligations.OutputsFollowTheState
  intro s
  refine ⟨?_, fun m out hm hout => ?_⟩
  · rw [← definedMode_eq_none]
    cases hm : definedMode s with
    | none => simp [outputs_of_no_definedMode hm]
    | some m => simp [outputs_of_definedMode hm]
  · rw [outputs_of_definedMode ((definedMode_eq_some s m).2 hm)] at hout
    cases hout
    exact ⟨rfl, rfl, preemptOk_iff m s⟩

/-- A TAKE under a mode in force: the winner is delivered if it may preempt, and otherwise nothing happens (R199). -/
theorem execTake_of_winner {s : State} {m : GroupMode} {w : Line} (hm : definedMode s = some m)
    (hw : winner m s = some w) (hp : mayPreempt m s w = true) : execTake s =
      .next { s with pend := clearFlag s.pend w, act := setFlag s.act w, resp := .done, made := [] } := by
  simp only [execTake, hm, hw, hp, if_true]
  rfl

theorem execTake_of_not_preemptOk {s : State} {m : GroupMode} (hm : definedMode s = some m)
    (hp : preemptOk m s = false) : execTake s = .next { s with resp := .notEnabled, made := [] } := by
  rw [preemptOk] at hp
  cases hw : winner m s with
  | none => simp only [execTake, hm, hw, eventNotEnabled_eq]
  | some w =>
    simp only [hw] at hp
    simp only [execTake, hm, hw, hp, Bool.false_eq_true, if_false, eventNotEnabled_eq]

/-- Settles O57: the cases of TAKE, each with the state it leaves. -/
theorem takeDeliversTheWinner : Obligations.TakeDeliversTheWinner := by
  unfold Obligations.TakeDeliversTheWinner
  refine ⟨fun s => Steps.execTake_of_not_modeDefined, fun m s w hm hw hbelow => ?_, fun m s hm hp => ?_⟩
  · have hdef := (definedMode_eq_some s m).2 hm
    exact ⟨_, execTake_of_winner hdef hw ((mayPreempt_iff m s w).2 hbelow), flag_clearFlag s.pend w,
      flag_setFlag s.act w, rfl⟩
  · exact execTake_of_not_preemptOk ((definedMode_eq_some s m).2 hm) hp

/-- Setting the flag of a line is writing the line's mask to the set register of its bank (R86, R198). -/
theorem setFlag_eq_setBank (f : Flags) (i : Line) : setFlag f i = setBank f (lineBank i) (maskOf i.val) := by
  apply BitVec.eq_of_getLsbD_eq
  intro k hk
  have hflag := flag_setFlag f i ⟨k, hk⟩
  have hbank := LineOps.flag_setBank_maskOf f i ⟨k, hk⟩
  simp only [Fin.ext_iff] at hflag
  exact hflag.trans hbank.symm

/-- Settles O58: IRQ and RET set and clear the one flag; IRQ as SETPEND does through the line's bank. -/
theorem signalAndReturnChangeOneFlag : Obligations.SignalAndReturnChangeOneFlag := by
  unfold Obligations.SignalAndReturnChangeOneFlag
  refine ⟨fun i s => ?_, fun i s h => ?_, fun i s h => execRet_of_not_active h⟩
  · have hline : (BitVec.ofNat 8 i.val).toNat = i.val := by simp; omega
    exact ⟨_, execIrq_eq i s, flag_setFlag s.pend i, rfl, _, LineOps.exec_setpend_of_line hline s, rfl,
      setFlag_eq_setBank s.pend i, rfl, rfl, rfl⟩
  · exact ⟨_, execRet_of_active h, flag_clearFlag s.act i, rfl⟩

/-! ### The low four bits of a priority byte -/

/-- The two states have the same flags, mode and keys. -/
structure SameKeys (s s' : State) : Prop where
  en : s.en = s'.en
  pend : s.pend = s'.pend
  act : s.act = s'.act
  mode : s.mode = s'.mode
  key : ∀ i, key4 (s.prio i) = key4 (s'.prio i)

section
variable {s s' : State} (h : SameKeys s s')
include h

theorem SameKeys.definedMode_eq : definedMode s = definedMode s' := by
  rw [definedMode, definedMode, h.mode]

theorem SameKeys.winner_eq (m : GroupMode) : winner m s = winner m s' := by
  have hcand : ∀ i, candidate s i = candidate s' i := fun i => by
    rw [candidate, candidate, State.enabled, State.enabled, State.pending, State.pending, h.en, h.pend]
  refine Option.ext fun w => ?_
  simp only [winner_eq_some_iff_key4, hcand, h.key]

theorem SameKeys.mayPreempt_eq (m : GroupMode) (w : Line) : mayPreempt m s w = mayPreempt m s' w := by
  rw [Bool.eq_iff_iff, mayPreempt_iff, mayPreempt_iff]
  simp only [toNat_grp_eq_key4, h.key, State.active, h.act]

theorem SameKeys.preemptOk_eq (m : GroupMode) : preemptOk m s = preemptOk m s' := by
  rw [preemptOk, preemptOk, h.winner_eq]
  simp only [h.mayPreempt_eq]

theorem SameKeys.outputs_eq : outputs s = outputs s' := by
  rw [outputs, outputs, h.definedMode_eq]
  simp only [h.winner_eq, h.preemptOk_eq]

/-- Whatever a TAKE is from one of the two states, it is from the other. -/
theorem SameKeys.execTake_next {t : State} (ht : execTake s = .next t) :
    ∃ t', execTake s' = .next t' ∧ t.pend = t'.pend ∧ t.act = t'.act ∧ t.resp = t'.resp := by
  rcases execTake_cases ht with ⟨-, he⟩ | ⟨m, w, hm, hw, hp, he⟩ | ⟨m, hm, hp, he⟩
  · cases he
  · cases he
    rw [h.definedMode_eq] at hm
    rw [h.winner_eq] at hw
    rw [h.mayPreempt_eq] at hp
    exact ⟨_, execTake_of_winner hm hw hp, congrArg (clearFlag · w) h.pend, congrArg (setFlag · w) h.act, rfl⟩
  · cases he
    rw [h.definedMode_eq] at hm
    rw [h.preemptOk_eq] at hp
    exact ⟨_, execTake_of_not_preemptOk hm hp, h.pend, h.act, rfl⟩

end

/-- Settles O54: the encoder reads a priority byte only through its key. -/
theorem lowPriorityBitsDoNotMatter : Obligations.LowPriorityBitsDoNotMatter := by
  unfold Obligations.LowPriorityBitsDoNotMatter
  intro s s' hen hpend hact hmode hkey
  have h : SameKeys s s' := ⟨hen, hpend, hact, hmode, hkey⟩
  exact ⟨h.outputs_eq, fun t => h.execTake_next⟩

end Sys2Proof.Encoder
